-- ==== Sys2Proof/Word.lean ====
section
/-! DEFINITION. The one machine word: an unsigned 8-bit value (00_scope.md R8, R9). -/

namespace Sys2Proof

/-- A `u8`: a register, a memory cell, an operand byte, an output value (R9, R20, R50). -/
abbrev Byte := BitVec 8

end Sys2Proof
end

