-- ==== Sys2Proof/Config.lean ====
section
/-! DEFINITION. The implementation parameters of 00_scope.md R8, the instruction names and the instruction formats.
`OPCODE_MAP` is one table too; it stands in Decode.lean (`Config.opcodeMap`), beside the decoder that reads it.
`REG_INIT` and `MEM_INIT` are arguments of the load port (Machine/Ports.lean), so a claim can hold for every value of them. -/

namespace Sys2Proof

/-- The 14 instruction names: "a finite, closed set of variants" (00_scope.md R3). -/
inductive Mnemonic
  | hlt | ldi | prn | add | mul | cmp | push | pop | call | ret | jmp | jeq | jne | iret
  deriving DecidableEq, Repr

/-- The formats of 30_encoding.md R72. -/
inductive Format
  | f0    -- opcode only
  | f1R   -- opcode, register index `a`
  | f2RR  -- opcode, register indices `a` and `b`
  | f2RI  -- opcode, register index `a`, immediate `imm8`
  deriving DecidableEq, Repr

namespace Config

/-- `MEM_SIZE`: number of memory cells (R8, D26; entry 12). -/
abbrev memSize : Nat := 256

/-- `NREG`: number of general-purpose registers (R8, D26; entry 12). -/
abbrev nreg : Nat := 8

/-- `SP_INIT`: the reset value of `sp` and the empty-stack value (R8, R30, D26; entry 12). -/
abbrev spInit : Byte := 0xF3#8

/-- `LOAD_ADDR`: the address of the first image byte (R8, R57). -/
abbrev loadAddr : Nat := 0

/-- `PC_INIT`, the reference value: what the reference loader supplies (R8, R27). -/
abbrev pcInit : Byte := 0#8

/-- `FETCH_WIDTH`: the bytes every fetch reads (R8, R71). -/
abbrev fetchWidth : Nat := 3

/-- `IRET_ADVANCE`: the PC advance of IRET (R8, R165). The spec's decision D13; entry 4. -/
abbrev iretAdvance : Nat := 1

end Config

/-- Every mnemonic, in the order of the opcode table. -/
def Mnemonic.all : List Mnemonic :=
  [.hlt, .ldi, .prn, .add, .mul, .cmp, .push, .pop, .call, .ret, .jmp, .jeq, .jne, .iret]

end Sys2Proof
end

