-- ==== Sys2Proof/Machine/State.lean ====
section
/-! DEFINITION. The state of the core (10_state.md), plain data, and the state after reset (70_reset_and_hazards.md R240). -/

namespace Sys2Proof
namespace Machine

/-- The flags register: "a small enumerated outcome type {EQUAL, LESS_THAN, GREATER_THAN, UNSET}" (10_state.md R31). -/
inductive Flags
  | unset
  | equal
  | lessThan
  | greaterThan
  deriving DecidableEq, Repr

/-- The run state (10_state.md R35). -/
inductive RunState
  | running
  | halted
  | aborted
  deriving DecidableEq, Repr

/-- The three errors the core raises (60_exceptions.md R200). -/
inductive ErrorKind
  | unsupportedOpcode         -- decode: R201
  | unsupportedALUOperation   -- the ALU's operation select: R202
  | outOfBoundsAccess         -- fetch, register check, stack bound: R203
  deriving DecidableEq, Repr

/-- The resource an `OutOfBoundsAccess` names (10_state.md R36). -/
inductive Resource
  | mem
  | reg
  | stack
  deriving DecidableEq, Repr

/-- The detail of an `OutOfBoundsAccess`: the resource and the offending index (10_state.md R36). -/
structure Detail where
  resource : Resource
  index    : Nat
  deriving DecidableEq, Repr

/-- The error report `(kind, pc, opcode, detail)` (10_state.md R36, the spec's decision D15; entry 13). -/
structure ErrorReport where
  kind   : ErrorKind
  pc     : Nat
  opcode : Option Byte    -- none when the opcode itself could not be fetched
  detail : Option Detail  -- none unless the kind is OutOfBoundsAccess
  deriving DecidableEq, Repr

/-- Memory: the cells that do not hold `fillByte`, by rising address (20_memory.md R50). -/
abbrev Memory := List Host.Cell

/-- What a cell that nothing has written reads as. DESIGN CHOICE (entry 2), unsafe: the spec leaves `MEM_INIT` free
(10_state.md R38, D6). A claim over the load port's `memInit` argument does not rest on it. -/
abbrev fillByte : Byte := 0#8

/-- The canonical form of a memory: addresses strictly rising and inside the address space, no cell listed that
reads as an unlisted one. -/
abbrev Memory.wf (m : Memory) : Prop :=
  m.Pairwise (fun c d => c.1 < d.1) ∧ ∀ c ∈ m, c.1 < Config.memSize ∧ c.2 ≠ fillByte

/-- All the state the spec gives the machine (10_state.md §1, R37, R43). -/
structure State where
  regs : Vector Byte Config.nreg  -- R0 to R7: R20
  pc   : Nat                      -- 0 to 256, never wraps: R24, R26 (D3; entry 6)
  sp   : Byte                     -- 0 to SP_INIT: R28, R29
  fl   : Flags                    -- R31 (reset UNSET: D7; entry 19)
  run  : RunState                 -- R35
  err  : Option ErrorReport       -- R36
  mem  : Memory                   -- R38, R50
  out  : List Byte                -- the values PRN emitted, oldest first: R43
  deriving DecidableEq, Repr

/-- A step that stops outside the machine's own rules. None exists: every error of this hardware is a transition to
ABORTED (60_exceptions.md R204), which is a next state. No definition of the model raises a fault (entry 5). -/
inductive Fault
  deriving DecidableEq, Repr

/-- An instruction without a meaning. -/
inductive Refusal
  | notModelled (mnemonic : String)  -- raised by an arm of exec that has no meaning yet (none is left); safe
  deriving DecidableEq, Repr

/-- What one step answers. -/
abbrev StepOutcome := Host.Outcome State Fault Refusal

/-- The machine right after reset (70_reset_and_hazards.md R240), no image loaded, `pc_init` the reference value.
`regs` and `mem` are DESIGN CHOICES (entries 1 and 2), unsafe: `REG_INIT` and `MEM_INIT` are free in the spec. -/
def State.reset : State where
  regs := Vector.replicate Config.nreg 0#8
  pc   := Config.pcInit.toNat
  sp   := Config.spInit
  fl   := .unset
  run  := .running
  err  := none
  mem  := []
  out  := []

end Machine
end Sys2Proof
end

