-- ==== Sys2Proof/Machine/Flags.lean ====
section
/-! DEFINITION. The flags: the outcome of CMP, the test of JEQ and JNE, and the optional byte view. -/

namespace Sys2Proof
namespace Machine

/-- The outcome of an unsigned comparison (41_alu.md R124, R125). -/
def compareFlags (x y : Byte) : Flags :=
  if x.toNat = y.toNat then .equal
  else if x.toNat < y.toNat then .lessThan
  else .greaterThan

/-- The only test a branch makes of the flags (10_state.md R33). -/
def Flags.isEqual (f : Flags) : Bool := f == .equal

/-- The byte view `0b00000LGE` of the flags (10_state.md R34). UNVERIFIED (entry 17): the spec gives it from general
knowledge, as an optional debug view that no rule depends on; no definition of the machine uses it. -/
def Flags.byteView : Flags → Byte
  | .unset => 0b00000000#8
  | .equal => 0b00000001#8
  | .greaterThan => 0b00000010#8
  | .lessThan => 0b00000100#8

end Machine
end Sys2Proof
end

