-- ==== Sys2Proof/WellFormed.lean ====
section
/-! DEFINITION. The one check on an instruction: its register fields lie in 0 to 7 (10_state.md R22, 30_encoding.md R72).
An ill-formed instruction still decodes and runs; running it raises `OutOfBoundsAccess` (30_encoding.md R79). -/

namespace Sys2Proof

/-- `a` is a valid register index: below `NREG` (R22). -/
abbrev validRegister (a : Byte) : Prop := a.toNat < Config.nreg

/-- Every register field of the instruction is a valid index. -/
abbrev Instr.wellFormed (i : Instr) : Prop := ∀ a ∈ i.registerFields, validRegister a

end Sys2Proof
end

