-- ==== Sys2Proof/Decode.lean ====
section
/-! DEFINITION. The opcode map, the decoder and the encoder (30_encoding.md), written from the same table. -/

namespace Sys2Proof

/-- An assignment of opcode bytes to instructions. -/
abbrev OpcodeMap := List (Byte × Mnemonic)

/-- `OPCODE_MAP`, 30_encoding.md R74. UNVERIFIED (entry 3): the spec takes the 14 bytes from general knowledge, its decision D1.
Unsafe for a claim about bytes; a claim over mnemonics holds for any map. -/
def Config.opcodeMap : OpcodeMap :=
  [ (0x01#8, .hlt),
    (0x82#8, .ldi),
    (0x47#8, .prn),
    (0xA0#8, .add),
    (0xA2#8, .mul),
    (0xA7#8, .cmp),
    (0x45#8, .push),
    (0x46#8, .pop),
    (0x50#8, .call),
    (0x11#8, .ret),
    (0x54#8, .jmp),
    (0x55#8, .jeq),
    (0x56#8, .jne),
    (0x13#8, .iret) ]

/-- The instruction an opcode byte names, none when the byte is not in the map (40_decoder_dispatch.md R102).
Every row matches the whole byte (R74). -/
def OpcodeMap.mnemonicOf (map : OpcodeMap) (op : Byte) : Option Mnemonic :=
  (map.find? (fun row => row.1 == op)).map (·.2)

/-- The opcode byte of an instruction name. The 0 stands only for a name that a map lacks; `OpcodeMap.wellFormed`
rules that out. -/
def OpcodeMap.byteOf (map : OpcodeMap) (m : Mnemonic) : Byte :=
  ((map.find? (fun row => row.2 == m)).map (·.1)).getD 0#8

/-- A map that gives every instruction exactly one byte, and no byte two instructions. -/
abbrev OpcodeMap.wellFormed (map : OpcodeMap) : Prop :=
  (map.map (·.1)).Nodup ∧ (map.map (·.2)).Nodup ∧ ∀ m ∈ Mnemonic.all, m ∈ map.map (·.2)

/-- The opcode byte of an instruction name under `OPCODE_MAP`. -/
def opcodeOf (m : Mnemonic) : Byte := Config.opcodeMap.byteOf m

/-- The explicit metadata table of 30_encoding.md R73: an instruction's format (R72, R74). -/
def Mnemonic.format : Mnemonic → Format
  | .hlt => .f0
  | .ldi => .f2RI
  | .prn => .f1R
  | .add => .f2RR
  | .mul => .f2RR
  | .cmp => .f2RR
  | .push => .f1R
  | .pop => .f1R
  | .call => .f1R
  | .ret => .f0
  | .jmp => .f1R
  | .jeq => .f1R
  | .jne => .f1R
  | .iret => .f0

/-- The operand count of a format (R72). -/
def Format.operandCount : Format → Nat
  | .f0 => 0
  | .f1R => 1
  | .f2RR => 2
  | .f2RI => 2

/-- Why a window of bytes is not an instruction. -/
inductive DecodeError
  | unsupportedOpcode (op : Byte)  -- no row of the map: 30_encoding.md R78
  | shortWindow                    -- fewer than FETCH_WIDTH bytes given; no fetch of the machine does this
  deriving DecidableEq, Repr

/-- The instruction a name and the two operand bytes make. A byte the instruction does not use is ignored (R71). -/
def instrOf (m : Mnemonic) (a b : Byte) : Instr :=
  match m with
  | .hlt => .hlt
  | .ldi => .ldi a b
  | .prn => .prn a
  | .add => .add a b
  | .mul => .mul a b
  | .cmp => .cmp a b
  | .push => .push a
  | .pop => .pop a
  | .call => .call a
  | .ret => .ret
  | .jmp => .jmp a
  | .jeq => .jeq a
  | .jne => .jne a
  | .iret => .iret

/-- Decode of the fetched bytes under a given map (40_decoder_dispatch.md R102). -/
def decodeWith (map : OpcodeMap) (op a b : Byte) : Except DecodeError Instr :=
  match map.mnemonicOf op with
  | some m => .ok (instrOf m a b)
  | none => .error (.unsupportedOpcode op)

/-- The machine's decoder: the three fetched bytes to an instruction. -/
def decode (op a b : Byte) : Except DecodeError Instr := decodeWith Config.opcodeMap op a b

/-- The decoder on any list of bytes: it reads the first `FETCH_WIDTH` of them (R71). -/
def decodeBytes : List Byte → Except DecodeError Instr
  | op :: a :: b :: _ => decode op a b
  | _ => .error .shortWindow

/-- The bytes of an instruction under a given map: opcode, then its operand bytes (R70). -/
def encodeWith (map : OpcodeMap) (i : Instr) : List Byte := map.byteOf i.mnemonic :: i.operandBytes

/-- The bytes of an instruction, without the ignored bytes of the fetch window. -/
def encode (i : Instr) : List Byte := encodeWith Config.opcodeMap i

/-- The pad an assembler emits after an instruction (R82): one byte after PUSH and POP, 0x00 as in the spec's
listings (decision D24; entry 15). -/
def padding : Instr → List Byte
  | .push _ => [0x00#8]
  | .pop _ => [0x00#8]
  | _ => []

/-- What an assembler emits for an instruction (R82). -/
def assemble (i : Instr) : List Byte := encode i ++ padding i

/-- Assembler text of a register operand (R80). -/
def registerText (a : Byte) : String := "R" ++ toString a.toNat

/-- The assembler's name of an instruction (R80). -/
def Mnemonic.text : Mnemonic → String
  | .hlt => "HLT"
  | .ldi => "LDI"
  | .prn => "PRN"
  | .add => "ADD"
  | .mul => "MUL"
  | .cmp => "CMP"
  | .push => "PUSH"
  | .pop => "POP"
  | .call => "CALL"
  | .ret => "RET"
  | .jmp => "JMP"
  | .jeq => "JEQ"
  | .jne => "JNE"
  | .iret => "IRET"

/-- Assembler text of an instruction (R80): the mnemonic, a space, the operands separated by commas. -/
def Instr.text (i : Instr) : String :=
  match i with
  | .ldi a imm => i.mnemonic.text ++ " " ++ registerText a ++ "," ++ toString imm.toNat
  | .add a b => i.mnemonic.text ++ " " ++ registerText a ++ "," ++ registerText b
  | .mul a b => i.mnemonic.text ++ " " ++ registerText a ++ "," ++ registerText b
  | .cmp a b => i.mnemonic.text ++ " " ++ registerText a ++ "," ++ registerText b
  | .prn a => i.mnemonic.text ++ " " ++ registerText a
  | .push a => i.mnemonic.text ++ " " ++ registerText a
  | .pop a => i.mnemonic.text ++ " " ++ registerText a
  | .call a => i.mnemonic.text ++ " " ++ registerText a
  | .jmp a => i.mnemonic.text ++ " " ++ registerText a
  | .jeq a => i.mnemonic.text ++ " " ++ registerText a
  | .jne a => i.mnemonic.text ++ " " ++ registerText a
  | .hlt => i.mnemonic.text
  | .ret => i.mnemonic.text
  | .iret => i.mnemonic.text

/-- A table word laid out as the three bytes of a fetch window: bit 0 is the least significant bit of the first byte,
and every bit from `nbits` up is 0. -/
def tableBytes (nbits w : Nat) : List Byte :=
  let v := w % 2 ^ nbits
  [BitVec.ofNat 8 v, BitVec.ofNat 8 (v / 2 ^ 8), BitVec.ofNat 8 (v / 2 ^ 16)]

/-- What the decoder reads from a word numbered as the opcode table numbers it. -/
def decodeTableWord (nbits w : Nat) : Option Instr := (decodeBytes (tableBytes nbits w)).toOption

end Sys2Proof
end

