-- ==== Sys2Proof/Machine/Ops.lean ====
section
/-! DEFINITION. The named operations of the pseudocode (00_scope.md R11): memory and register access, raising an error,
the abort, the fetch, the stack, the output port, and the commit of a handler's result. -/

namespace Sys2Proof
namespace Machine

/-! ### Memory cells -/

/-- The value of a cell (R60): its listed byte, else the fill byte. -/
def Memory.read : Memory → Nat → Byte
  | [], _ => fillByte
  | (a, v) :: rest, addr => if a = addr then v else Memory.read rest addr

/-- Puts a cell before the first one of a higher address. -/
def Memory.place (addr : Nat) (v : Byte) : Memory → Memory
  | [] => [(addr, v)]
  | (a, w) :: rest => if addr < a then (addr, v) :: (a, w) :: rest else (a, w) :: Memory.place addr v rest

/-- Writes one cell and keeps the canonical form: a cell that now reads as an unlisted one is not listed. -/
def Memory.write (m : Memory) (addr : Nat) (v : Byte) : Memory :=
  let others := m.filter (fun c => c.1 != addr)
  if v = fillByte then others else Memory.place addr v others

/-- Places bytes from an address up, dropping those past the last cell (the loader's write, R40; entry 14). -/
def Memory.store : Memory → Nat → List Byte → Memory
  | m, _, [] => m
  | m, addr, b :: bs => Memory.store (if addr < Config.memSize then m.write addr b else m) (addr + 1) bs

/-! ### Registers and the other fields -/

/-- `reg[i]` (R10). -/
def State.reg (s : State) (i : Fin Config.nreg) : Byte := s.regs[i]

/-- `reg[i] <- v` (R10). -/
def State.setReg (s : State) (i : Fin Config.nreg) (v : Byte) : State := { s with regs := s.regs.set i v }

/-- `pc <- x` (R11). -/
def State.setPc (s : State) (x : Nat) : State := { s with pc := x }

/-- `sp <- x`. -/
def State.setSp (s : State) (x : Byte) : State := { s with sp := x }

/-- `fl <- f`. -/
def State.setFl (s : State) (f : Flags) : State := { s with fl := f }

/-- `mem[addr] <- v`, for an address already checked. -/
def State.setCell (s : State) (addr : Nat) (v : Byte) : State := { s with mem := s.mem.write addr v }

/-- `emit(v)` (R11, R43): one value is appended to the output list; it never blocks or fails (D23; entry 16). -/
def State.emit (s : State) (v : Byte) : State := { s with out := s.out ++ [v] }

/-- `halt` (R11). -/
def State.halt (s : State) : State := { s with run := .halted }

/-! ### Errors -/

/-- The report of an instruction that raises: the address of its opcode byte, that byte, and the detail (R36). -/
def report (s : State) (kind : ErrorKind) (opcode : Option Byte) (detail : Option Detail) : ErrorReport :=
  ⟨kind, s.pc, opcode, detail⟩

/-- The report of an `OutOfBoundsAccess` (R203). -/
def boundsReport (s : State) (opcode : Option Byte) (resource : Resource) (index : Nat) : ErrorReport :=
  report s .outOfBoundsAccess opcode (some ⟨resource, index⟩)

/-- Taking an error (60_exceptions.md R204): `run <- ABORTED`, `err <- report`, nothing else changes. No state is saved,
no handler runs (R205), and nothing returns from it but a new load (R209). -/
def State.abort (s : State) (r : ErrorReport) : State := { s with run := .aborted, err := some r }

/-- The number of an error on the status port (R200, D15; entry 13). -/
def ErrorKind.code : ErrorKind → Nat
  | .unsupportedOpcode => 1
  | .unsupportedALUOperation => 2
  | .outOfBoundsAccess => 3

/-! ### Checked access -/

/-- `MemRead(addr, 1)` (R11, R51): the cell, or `OutOfBoundsAccess (MEM, addr)`. -/
def memRead (s : State) (opcode : Option Byte) (addr : Nat) : Except ErrorReport Byte :=
  if addr < Config.memSize then .ok (s.mem.read addr) else .error (boundsReport s opcode .mem addr)

/-- `MemWrite(addr, 1, v)` (R11, R51), staged on `t`; `s` is the state the instruction started in. -/
def memWrite (s : State) (opcode : Option Byte) (addr : Nat) (v : Byte) (t : State) : Except ErrorReport State :=
  if addr < Config.memSize then .ok (t.setCell addr v) else .error (boundsReport s opcode .mem addr)

/-- The fetch window: the bytes at `pc`, `pc+1` and `pc+2` (00_scope.md R13). -/
structure Window where
  op : Byte
  a  : Byte
  b  : Byte
  deriving DecidableEq, Repr

/-- The fetch (40_decoder_dispatch.md R101): all three bytes for every opcode. -/
def fetch (s : State) : Except ErrorReport Window := do
  let op ← memRead s none s.pc
  let a ← memRead s (some op) (s.pc + 1)
  let b ← memRead s (some op) (s.pc + 2)
  return ⟨op, a, b⟩

/-- A push (42_stack_call.md R140, R141): the bound first, then `sp <- sp - 1` and the write at the new `sp`.
The bound is the spec's decision D8 (entry 20). -/
def pushByte (m : Mnemonic) (v : Byte) (s : State) : Except ErrorReport State :=
  if 1 ≤ s.sp.toNat then memWrite s (some (opcodeOf m)) (s.sp - 1).toNat v (s.setSp (s.sp - 1))
  else .error (boundsReport s (some (opcodeOf m)) .stack s.sp.toNat)

/-- A pop (42_stack_call.md R140, R142): the bound first, then the read at `sp` and `sp <- sp + 1`.
The bound is the spec's decision D8 (entry 20). -/
def popByte (m : Mnemonic) (s : State) : Except ErrorReport (Byte × State) :=
  if s.sp.toNat < Config.spInit.toNat then do
    let v ← memRead s (some (opcodeOf m)) s.sp.toNat
    return (v, s.setSp (s.sp + 1))
  else .error (boundsReport s (some (opcodeOf m)) .stack s.sp.toNat)

/-! ### Handler results -/

/-- What a handler returns (40_decoder_dispatch.md R103). -/
inductive PcResult
  | advance (n : Nat)
  | setPc (x : Byte)
  | halt
  deriving DecidableEq, Repr

/-- The dispatcher applies exactly one result (R103); `p` is the address of the instruction. -/
def PcResult.apply (p : Nat) : PcResult → State → State
  | .advance n, t => t.setPc (p + n)
  | .setPc x, t => t.setPc x.toNat
  | .halt, t => t.halt

/-- The commit (40_decoder_dispatch.md R106): a handler that raises has changed nothing but `run` and `err` of the state it
started in (D10; entry 5); one that does not commits its staged writes and its PC result together. -/
def commit (s : State) : Except ErrorReport (State × PcResult) → StepOutcome
  | .ok (t, result) => .next (result.apply s.pc t)
  | .error r => .next (s.abort r)

end Machine
end Sys2Proof
end

