-- ==== Sys2Proof/Machine/Operands.lean ====
section
/-! DEFINITION. The operand forms (30_encoding.md R75, R76): a register index and an immediate. -/

namespace Sys2Proof
namespace Machine

/-- The register-operand check (40_decoder_dispatch.md R105): the whole byte is the index; 8 to 255 raises
`OutOfBoundsAccess (REG, index)`, without masking or wrap (10_state.md R22). -/
def registerOperand (s : State) (m : Mnemonic) (a : Byte) : Except ErrorReport (Fin Config.nreg) :=
  if h : a.toNat < Config.nreg then .ok ⟨a.toNat, h⟩
  else .error (boundsReport s (some (opcodeOf m)) .reg a.toNat)

/-- The LDI immediate (R75): the whole byte, not sign-extended, scaled or shifted. -/
def immediateOperand (imm : Byte) : Byte := imm

/-- The return address CALL pushes (42_stack_call.md R145): `p + 2`, one byte, since a fetched instruction has
`p <= 253` (entry 18 for an `exec` at a `pc` that no fetch allows). -/
def returnAddress (p : Nat) : Byte := BitVec.ofNat 8 (p + 2)

end Machine
end Sys2Proof
end

