-- ==== Sys2Proof/Machine/Alu.lean ====
section
/-! DEFINITION. The ALU and its three instructions ADD, MUL and CMP (41_alu.md). -/

namespace Sys2Proof
namespace Machine

/-- The ALU's operation select (41_alu.md R120, R121). DESIGN CHOICE (entry 11): the spec names the three operations
and says only that any other select is an error, so `other` stands for every other code. -/
inductive AluOp
  | add
  | mul
  | cmp
  | other (code : Byte)
  deriving DecidableEq, Repr

/-- `(x + y) mod 256` (R125). -/
def aluAdd (x y : Byte) : Byte := BitVec.ofNat 8 (x.toNat + y.toNat)

/-- `(x * y) mod 256`: the high byte of the product is discarded (R125). -/
def aluMul (x y : Byte) : Byte := BitVec.ofNat 8 (x.toNat * y.toNat)

/-- The ALU (R120): both operands are read before the write; a select outside {ADD, MUL, CMP} is an error (R121, R202). -/
def alu (select : AluOp) (i j : Fin Config.nreg) (s : State) : Except ErrorKind State :=
  match select with
  | .add => .ok (s.setReg i (aluAdd (s.reg i) (s.reg j)))
  | .mul => .ok (s.setReg i (aluMul (s.reg i) (s.reg j)))
  | .cmp => .ok (s.setFl (compareFlags (s.reg i) (s.reg j)))
  | .other _ => .error .unsupportedALUOperation

/-- A handler of the ALU class: the register checks in order (60_exceptions.md R208), then the ALU, then `Advance(3)`.
An error of the ALU is reported with no detail (R202). -/
def aluHandler (m : Mnemonic) (select : AluOp) (a b : Byte) (s : State) : StepOutcome :=
  commit s do
    let i ← registerOperand s m a
    let j ← registerOperand s m b
    match alu select i j s with
    | .ok t => return (t, .advance 3)
    | .error kind => .error (report s kind (some (opcodeOf m)) none)

/-- ADD (R122). -/
def execAdd (a b : Byte) (s : State) : StepOutcome := aluHandler .add .add a b s

/-- MUL (R123). -/
def execMul (a b : Byte) (s : State) : StepOutcome := aluHandler .mul .mul a b s

/-- CMP (R124). -/
def execCmp (a b : Byte) (s : State) : StepOutcome := aluHandler .cmp .cmp a b s

end Machine
end Sys2Proof
end

