-- ==== Sys2Proof/Machine/BranchIo.lean ====
section
/-! DEFINITION. Load, print and branch: LDI, PRN, JMP, JEQ, JNE, IRET (43_branch_io.md). -/

namespace Sys2Proof
namespace Machine

/-- LDI (R160). -/
def execLdi (a imm : Byte) (s : State) : StepOutcome :=
  commit s do
    let i ← registerOperand s .ldi a
    return (s.setReg i (immediateOperand imm), .advance 3)

/-- PRN (R161). -/
def execPrn (a : Byte) (s : State) : StepOutcome :=
  commit s do
    let i ← registerOperand s .prn a
    return (s.emit (s.reg i), .advance 2)

/-- JMP (R162). -/
def execJmp (a : Byte) (s : State) : StepOutcome :=
  commit s do
    let i ← registerOperand s .jmp a
    return (s, .setPc (s.reg i))

/-- JEQ (R163): the register is checked also when the branch falls through (R105). -/
def execJeq (a : Byte) (s : State) : StepOutcome :=
  commit s do
    let i ← registerOperand s .jeq a
    return (s, if s.fl.isEqual then .setPc (s.reg i) else .advance 2)

/-- JNE (R164): UNSET is "not EQUAL". -/
def execJne (a : Byte) (s : State) : StepOutcome :=
  commit s do
    let i ← registerOperand s .jne a
    return (s, if s.fl.isEqual then .advance 2 else .setPc (s.reg i))

/-- IRET (R165): a no-op placeholder that advances by `IRET_ADVANCE` (D13; entry 4). -/
def execIret (s : State) : StepOutcome := commit s (.ok (s, .advance Config.iretAdvance))

end Machine
end Sys2Proof
end

