-- ==== Sys2Proof/Machine/Halt.lean ====
section
/-! DEFINITION. HLT (40_decoder_dispatch.md R108). -/

namespace Sys2Proof
namespace Machine

/-- HLT (R108): `run <- HALTED`, and `pc` stays at the instruction (D14; entry 9). -/
def execHlt (s : State) : StepOutcome := commit s (.ok (s, .halt))

end Machine
end Sys2Proof
end

