-- ==== Sys2Proof/Machine/Stack.lean ====
section
/-! DEFINITION. The stack and call engine: PUSH, POP, CALL, RET (42_stack_call.md). -/

namespace Sys2Proof
namespace Machine

/-- PUSH (R143). -/
def execPush (a : Byte) (s : State) : StepOutcome :=
  commit s do
    let i ← registerOperand s .push a
    let t ← pushByte .push (s.reg i) s
    return (t, .advance 3)

/-- POP (R144). -/
def execPop (a : Byte) (s : State) : StepOutcome :=
  commit s do
    let i ← registerOperand s .pop a
    let popped ← popByte .pop s
    return (popped.2.setReg i popped.1, .advance 3)

/-- CALL (R145): the target is read before any write. -/
def execCall (a : Byte) (s : State) : StepOutcome :=
  commit s do
    let i ← registerOperand s .call a
    let t ← pushByte .call (returnAddress s.pc) s
    return (t, .setPc (s.reg i))

/-- RET (R146). -/
def execRet (s : State) : StepOutcome :=
  commit s do
    let popped ← popByte .ret s
    return (popped.2, .setPc popped.1)

end Machine
end Sys2Proof
end

