-- ==== Sys2Proof/Machine/Step.lean ====
section
/-! DEFINITION. One step of the core (40_decoder_dispatch.md R100, R109), and where a table word stands for a fetch. -/

namespace Sys2Proof
namespace Machine

/-- One whole instruction while RUNNING: fetch, decode, then the meaning, which checks its register operands first (R105).
From HALTED or ABORTED nothing changes (R107, D25; entry 21). -/
def step (s : State) : Host.Outcome State Fault Refusal :=
  match s.run with
  | .running =>
    match fetch s with
    | .error r => .next (s.abort r)
    | .ok w =>
      match decode w.op w.a w.b with
      | .error _ => .next (s.abort (report s .unsupportedOpcode (some w.op) none))
      | .ok i => exec i s
  | .halted => .next s
  | .aborted => .next s

/-- `s` with the table word stored at its `pc`, as the load port would have placed it (R40; entry 14). For a RUNNING state with
`pc <= 253` the next step runs exactly that instruction. -/
def State.withFetchWord (s : State) (nbits w : Nat) : State :=
  { s with mem := s.mem.store s.pc (tableBytes nbits w) }

end Machine
end Sys2Proof
end

