-- ==== Sys2Proof/Machine/Ports.lean ====
section
/-! DEFINITION. The ports of the block (10_state.md R40 to R44) and the host's two moves (70_reset_and_hazards.md R244). -/

namespace Sys2Proof
namespace Machine

/-- What the load port is given. `image` and `pcInit` are the host's (R40). `regInit` and `memInit` are the free parameters
`REG_INIT` and `MEM_INIT` of this load (R240, D5, D6): a claim about a load holds for every value of them. -/
structure Load where
  image   : List Byte
  pcInit  : Byte
  regInit : Vector Byte Config.nreg
  memInit : Memory
  deriving DecidableEq, Repr

/-- The state after a load (70_reset_and_hazards.md R240): every piece of state is set. -/
def Load.state (l : Load) : State where
  regs := l.regInit
  pc   := l.pcInit.toNat
  sp   := Config.spInit
  fl   := .unset
  run  := .running
  err  := none
  mem  := l.memInit.store Config.loadAddr l.image
  out  := []

/-- The load port (R40, R241, D22): at any time, also from HALTED or ABORTED. An image that does not fit is refused: no run
starts and the core keeps its previous state. -/
def loadPort (l : Load) (s : State) : State :=
  if l.image.length ≤ Config.memSize - Config.loadAddr then l.state else s

/-- A run is over (R246): HALTED or ABORTED. -/
def State.terminal (s : State) : Bool :=
  match s.run with
  | .running => false
  | .halted => true
  | .aborted => true

/-- The status port (R44): `run` and `err`, always readable. -/
def statusPort (s : State) : RunState × Option ErrorReport := (s.run, s.err)

/-- The output port (R43): the values emitted so far, in order. -/
def outputPort (s : State) : List Byte := s.out

/-- The final state, readable by the host only when the run is over (R44, D2; entry 22). -/
def finalStatePort (s : State) : Option State := if s.terminal then some s else none

/-- The host's moves; a model gives the host no other (R244). -/
inductive HostMove
  | load (l : Load)
  | step
  deriving DecidableEq, Repr

/-- What a move of the host does to the core. -/
def hostMove (mv : HostMove) (s : State) : StepOutcome :=
  match mv with
  | .load l => .next (loadPort l s)
  | .step => step s

end Machine
end Sys2Proof
end

