-- ==== Sys2Proof/Safety.lean ====
section
/-! DEFINITION. What claims call a legal state and a clean run. -/

namespace Sys2Proof
namespace Machine

/-- The cause an `OutOfBoundsAccess` names is one of those of 60_exceptions.md R203: a fetch past the last cell, a register
index of 8 to 255, a push at `sp = 0`, a pop at `sp = SP_INIT`. -/
def Detail.hasCause (d : Detail) (s : State) : Prop :=
  match d.resource with
  | .mem => 254 ≤ s.pc ∧ d.index = max s.pc Config.memSize
  | .reg => Config.nreg ≤ d.index ∧ d.index ≤ 255
  | .stack => d.index = s.sp.toNat ∧ (d.index = 0 ∨ d.index = Config.spInit.toNat)

/-- The report fits the ABORTED state it stands in (10_state.md R36, 60_exceptions.md R201 to R204). -/
structure ErrorReport.Fits (r : ErrorReport) (s : State) : Prop where
  /-- `pc` keeps the failing instruction's address (R204). -/
  pc : r.pc = s.pc
  /-- The opcode is the byte there, or none when there is none (R101). -/
  opcode : r.opcode = if s.pc < Config.memSize then some (s.mem.read s.pc) else none
  /-- No program makes the core raise `UnsupportedALUOperation` (R121). -/
  kind : r.kind ≠ .unsupportedALUOperation
  /-- A detail stands exactly in an `OutOfBoundsAccess` (R36). -/
  detail : r.kind = .outOfBoundsAccess ↔ r.detail ≠ none
  /-- The detail names a cause of R203. -/
  cause : ∀ d, r.detail = some d → d.hasCause s

/-- A legal state of the core. -/
structure State.Inv (s : State) : Prop where
  /-- Memory is in canonical form, inside the address space (20_memory.md R50). -/
  mem : s.mem.wf
  /-- The PC is an integer 0 to 256 (10_state.md R26). -/
  pc : s.pc ≤ Config.memSize
  /-- The SP lies in 0 to `SP_INIT` (10_state.md R29). -/
  sp : s.sp.toNat ≤ Config.spInit.toNat
  /-- There is a report exactly in ABORTED (10_state.md R36). -/
  err : s.run = .aborted ↔ s.err ≠ none
  /-- The report fits the state. -/
  report : ∀ r, s.err = some r → r.Fits s

/-- No error state: the run goes on or has halted (60_exceptions.md R206). -/
def State.clean (s : State) : Prop := s.run ≠ .aborted

end Machine
end Sys2Proof
end

