-- ==== Sys2Proof/Certificates/Slice0/Obligations.lean ====
section
/-! DEFINITION. The statements for the provers. Each one's docstring names the rules of spec/ it formalises.
Where a clause rests on a decision of the spec's own (92_eei_decisions.md D<n>) the docstring says so. -/

namespace Sys2Proof.Claims

open Sys2Proof Sys2Proof.Machine

/-- The state an instruction leaves that raises an `OutOfBoundsAccess`: `run` and `err` only (60_exceptions.md R204, the spec's own
choice D10; entry 5). The report's layout is R36's (D15; entry 13). -/
def outOfBoundsAbort (s : State) (opcode : Option Byte) (resource : Resource) (index : Nat) : State :=
  { s with run := .aborted, err := some ⟨.outOfBoundsAccess, s.pc, opcode, some ⟨resource, index⟩⟩ }

/-- The 14 opcode bytes of 30_encoding.md R74. -/
def opcodes : List Byte :=
  [0x01#8, 0x11#8, 0x13#8, 0x45#8, 0x46#8, 0x47#8, 0x50#8, 0x54#8, 0x55#8, 0x56#8, 0x82#8, 0xA0#8, 0xA2#8, 0xA7#8]

/-- The opcode bytes whose format has a register field `a`: F1R, F2RR and F2RI (30_encoding.md R72). -/
def opcodesWithA : List Byte :=
  [0x45#8, 0x46#8, 0x47#8, 0x50#8, 0x54#8, 0x55#8, 0x56#8, 0x82#8, 0xA0#8, 0xA2#8, 0xA7#8]

/-- The opcode bytes whose format has a register field `b`: F2RR (30_encoding.md R72). -/
def opcodesWithB : List Byte := [0xA0#8, 0xA2#8, 0xA7#8]

/-- The checks of a step in the order of 60_exceptions.md R208: whether each fails, and what it reports then. -/
def checks (s : State) : List (Bool × ErrorReport) :=
  let p := s.pc
  let op := s.mem.read p
  let a := s.mem.read (p + 1)
  let b := s.mem.read (p + 2)
  [ (decide (256 ≤ p), ⟨.outOfBoundsAccess, p, none, some ⟨.mem, p⟩⟩),
    (decide (256 ≤ p + 1), ⟨.outOfBoundsAccess, p, some op, some ⟨.mem, p + 1⟩⟩),
    (decide (256 ≤ p + 2), ⟨.outOfBoundsAccess, p, some op, some ⟨.mem, p + 2⟩⟩),
    (decide (op ∉ opcodes), ⟨.unsupportedOpcode, p, some op, none⟩),
    (decide (op ∈ opcodesWithA ∧ 8 ≤ a.toNat), ⟨.outOfBoundsAccess, p, some op, some ⟨.reg, a.toNat⟩⟩),
    (decide (op ∈ opcodesWithB ∧ 8 ≤ b.toNat), ⟨.outOfBoundsAccess, p, some op, some ⟨.reg, b.toNat⟩⟩),
    (decide ((op = 0x45#8 ∨ op = 0x50#8) ∧ s.sp.toNat = 0 ∨ (op = 0x46#8 ∨ op = 0x11#8) ∧ 243 ≤ s.sp.toNat),
      ⟨.outOfBoundsAccess, p, some op, some ⟨.stack, s.sp.toNat⟩⟩) ]

/-- The registers an instruction reads (10_state.md R21). -/
def registersRead : Instr → List Byte
  | .prn a => [a]
  | .add a b => [a, b]
  | .mul a b => [a, b]
  | .cmp a b => [a, b]
  | .push a => [a]
  | .call a => [a]
  | .jmp a => [a]
  | .jeq a => [a]
  | .jne a => [a]
  | .hlt => []
  | .ldi _ _ => []
  | .pop _ => []
  | .ret => []
  | .iret => []

/-- The registers an instruction writes (10_state.md R21). -/
def registersWritten : Instr → List Byte
  | .ldi a _ => [a]
  | .add a _ => [a]
  | .mul a _ => [a]
  | .pop a => [a]
  | .hlt => []
  | .prn _ => []
  | .cmp _ _ => []
  | .push _ => []
  | .call _ => []
  | .ret => []
  | .jmp _ => []
  | .jeq _ => []
  | .jne _ => []
  | .iret => []

/-- The value of the register a byte names; used only where the byte is a valid index. -/
def registerValue (s : State) (a : Byte) : Byte := s.regs.toList.getD a.toNat 0#8

/-- The "PC effect" column of 30_encoding.md R74. -/
def pcAfter (i : Instr) (s : State) : Nat :=
  match i with
  | .hlt => s.pc
  | .ldi _ _ => s.pc + 3
  | .prn _ => s.pc + 2
  | .add _ _ => s.pc + 3
  | .mul _ _ => s.pc + 3
  | .cmp _ _ => s.pc + 3
  | .push _ => s.pc + 3
  | .pop _ => s.pc + 3
  | .call a => (registerValue s a).toNat
  | .ret => (s.mem.read s.sp.toNat).toNat
  | .jmp a => (registerValue s a).toNat
  | .jeq a => if s.fl = .equal then (registerValue s a).toNat else s.pc + 2
  | .jne a => if s.fl = .equal then s.pc + 2 else (registerValue s a).toNat
  | .iret => s.pc + 1

/-- The instruction goes on at the address after it: it has an advance in 40_decoder_dispatch.md R104 for this state. -/
def advances (i : Instr) (s : State) : Prop :=
  match i with
  | .ldi _ _ => True
  | .prn _ => True
  | .add _ _ => True
  | .mul _ _ => True
  | .cmp _ _ => True
  | .push _ => True
  | .pop _ => True
  | .iret => True
  | .jeq _ => s.fl ≠ .equal
  | .jne _ => s.fl = .equal
  | .hlt => False
  | .call _ => False
  | .ret => False
  | .jmp _ => False

/-- The stack bound of the instruction holds (42_stack_call.md R141, R142). -/
def stackRoom (i : Instr) (s : State) : Prop :=
  match i with
  | .push _ => 1 ≤ s.sp.toNat
  | .call _ => 1 ≤ s.sp.toNat
  | .pop _ => s.sp.toNat < 243
  | .ret => s.sp.toNat < 243
  | .hlt => True
  | .ldi _ _ => True
  | .prn _ => True
  | .add _ _ => True
  | .mul _ _ => True
  | .cmp _ _ => True
  | .jmp _ => True
  | .jeq _ => True
  | .jne _ => True
  | .iret => True

end Sys2Proof.Claims

open Sys2Proof Sys2Proof.Machine

/-! ### The instructions

Each of these states its instruction whole: the decoding of the opcode byte (the byte is a general-knowledge value of the spec,
D1; entry 3), the effect with everything else unchanged, and the error of each check. The checks, their order and what an abort
leaves are the spec's own choices, stated in other rules than the instruction's. -/

/-- R160; R105 and R204 for the register check and its abort (the spec's own choices D9, D10; entries 8, 5). LDI: decoding, the
value written and everything else unchanged, and the register check. -/
def Obligations.LdiWritesItsImmediate : Prop :=
  ∀ (s : State) (a imm : Byte),
    decode 0x82#8 a imm = .ok (.ldi a imm) ∧
    (∀ ha : a.toNat < 8,
      exec (.ldi a imm) s = .next { s with regs := s.regs.set a.toNat imm ha, pc := s.pc + 3 }) ∧
    (8 ≤ a.toNat → exec (.ldi a imm) s = .next (Claims.outOfBoundsAbort s (some 0x82#8) .reg a.toNat))

/-- R161; R105 and R204 for the register check and its abort (the spec's own choices D9, D10; entries 8, 5). PRN: the register's
value is appended to the output, and nothing else changes but the PC. -/
def Obligations.PrnEmitsItsRegister : Prop :=
  ∀ (s : State) (a ignored : Byte),
    decode 0x47#8 a ignored = .ok (.prn a) ∧
    (∀ ha : a.toNat < 8, exec (.prn a) s = .next { s with out := s.out ++ [s.regs[a.toNat]], pc := s.pc + 2 }) ∧
    (8 ≤ a.toNat → exec (.prn a) s = .next (Claims.outOfBoundsAbort s (some 0x47#8) .reg a.toNat))

/-- R122; R105, R208 and R204 for the register checks, their order and the abort (the spec's own choices D9, D11, D10; entries 8,
10, 5). ADD: the sum mod 256 in `reg[a]`, no flag, and the register checks in order. -/
def Obligations.AddWritesTheSumMod256 : Prop :=
  ∀ (s : State) (a b : Byte),
    decode 0xA0#8 a b = .ok (.add a b) ∧
    (∀ (ha : a.toNat < 8) (hb : b.toNat < 8),
      exec (.add a b) s = .next { s with
        regs := s.regs.set a.toNat (BitVec.ofNat 8 ((s.regs[a.toNat].toNat + s.regs[b.toNat].toNat) % 256)) ha
        pc := s.pc + 3 }) ∧
    (8 ≤ a.toNat → exec (.add a b) s = .next (Claims.outOfBoundsAbort s (some 0xA0#8) .reg a.toNat)) ∧
    (a.toNat < 8 → 8 ≤ b.toNat → exec (.add a b) s = .next (Claims.outOfBoundsAbort s (some 0xA0#8) .reg b.toNat))

/-- R123; R105, R208 and R204 for the register checks, their order and the abort (the spec's own choices D9, D11, D10; entries 8,
10, 5). MUL: the low byte of the product in `reg[a]`, no flag, and the register checks in order. -/
def Obligations.MulWritesTheProductMod256 : Prop :=
  ∀ (s : State) (a b : Byte),
    decode 0xA2#8 a b = .ok (.mul a b) ∧
    (∀ (ha : a.toNat < 8) (hb : b.toNat < 8),
      exec (.mul a b) s = .next { s with
        regs := s.regs.set a.toNat (BitVec.ofNat 8 ((s.regs[a.toNat].toNat * s.regs[b.toNat].toNat) % 256)) ha
        pc := s.pc + 3 }) ∧
    (8 ≤ a.toNat → exec (.mul a b) s = .next (Claims.outOfBoundsAbort s (some 0xA2#8) .reg a.toNat)) ∧
    (a.toNat < 8 → 8 ≤ b.toNat → exec (.mul a b) s = .next (Claims.outOfBoundsAbort s (some 0xA2#8) .reg b.toNat))

/-- R124; R105, R208 and R204 for the register checks, their order and the abort (the spec's own choices D9, D11, D10; entries 8,
10, 5). CMP: exactly one of the three outcomes of the unsigned comparison in `fl`, and nothing else but the PC. -/
def Obligations.CmpSetsTheFlags : Prop :=
  ∀ (s : State) (a b : Byte),
    decode 0xA7#8 a b = .ok (.cmp a b) ∧
    (∀ (ha : a.toNat < 8) (hb : b.toNat < 8),
      (s.regs[a.toNat].toNat = s.regs[b.toNat].toNat →
        exec (.cmp a b) s = .next { s with fl := .equal, pc := s.pc + 3 }) ∧
      (s.regs[a.toNat].toNat < s.regs[b.toNat].toNat →
        exec (.cmp a b) s = .next { s with fl := .lessThan, pc := s.pc + 3 }) ∧
      (s.regs[b.toNat].toNat < s.regs[a.toNat].toNat →
        exec (.cmp a b) s = .next { s with fl := .greaterThan, pc := s.pc + 3 })) ∧
    (8 ≤ a.toNat → exec (.cmp a b) s = .next (Claims.outOfBoundsAbort s (some 0xA7#8) .reg a.toNat)) ∧
    (a.toNat < 8 → 8 ≤ b.toNat → exec (.cmp a b) s = .next (Claims.outOfBoundsAbort s (some 0xA7#8) .reg b.toNat))

/-- R143; R105, R141, R208 and R204 for the register check, the stack bound, their order and the abort (the spec's own choices D9,
D8, D11, D10; entries 8, 20, 10, 5). PUSH: `sp` one lower, the register's value at the new `sp`, every other address as before,
nothing else but the PC (+3); the register check, at `sp = 0` too, and then the stack bound. -/
def Obligations.PushStoresBelowSp : Prop :=
  ∀ (s : State) (a ignored : Byte),
    decode 0x45#8 a ignored = .ok (.push a) ∧
    (∀ ha : a.toNat < 8, 1 ≤ s.sp.toNat →
      ∃ t, exec (.push a) s = .next t ∧
        t.sp.toNat = s.sp.toNat - 1 ∧ t.pc = s.pc + 3 ∧
        t.mem.read (s.sp.toNat - 1) = s.regs[a.toNat] ∧
        (∀ x, x ≠ s.sp.toNat - 1 → t.mem.read x = s.mem.read x) ∧
        t = { s with sp := t.sp, pc := t.pc, mem := t.mem }) ∧
    (8 ≤ a.toNat → exec (.push a) s = .next (Claims.outOfBoundsAbort s (some 0x45#8) .reg a.toNat)) ∧
    (a.toNat < 8 → s.sp.toNat = 0 → exec (.push a) s = .next (Claims.outOfBoundsAbort s (some 0x45#8) .stack 0))

/-- R144; R105, R142, R208 and R204 for the register check, the stack bound, their order and the abort (the spec's own choices D9,
D8, D11, D10; entries 8, 20, 10, 5). POP: the byte at `sp` in the register, `sp` one higher, memory and everything else unchanged
but the PC (+3); the register check, on an empty stack too, and then the stack bound. -/
def Obligations.PopLoadsFromSp : Prop :=
  ∀ (s : State) (a ignored : Byte),
    decode 0x46#8 a ignored = .ok (.pop a) ∧
    (∀ ha : a.toNat < 8, s.sp.toNat < 243 →
      ∃ t, exec (.pop a) s = .next t ∧
        t.sp.toNat = s.sp.toNat + 1 ∧
        t = { s with regs := s.regs.set a.toNat (s.mem.read s.sp.toNat) ha, sp := t.sp, pc := s.pc + 3 }) ∧
    (8 ≤ a.toNat → exec (.pop a) s = .next (Claims.outOfBoundsAbort s (some 0x46#8) .reg a.toNat)) ∧
    (a.toNat < 8 → 243 ≤ s.sp.toNat →
      exec (.pop a) s = .next (Claims.outOfBoundsAbort s (some 0x46#8) .stack s.sp.toNat))

/-- R145; R105, R141, R208 and R204 for the register check, the stack bound, their order and the abort (the spec's own choices D9,
D8, D11, D10; entries 8, 20, 10, 5). CALL: `sp` one lower, the return address `p + 2` at the new `sp` (for the `p <= 253` of a
fetched instruction), every other address as before, the PC at the register's value, nothing else; the register check, at `sp = 0`
too, and then the stack bound. -/
def Obligations.CallPushesTheReturnAddress : Prop :=
  ∀ (s : State) (a ignored : Byte),
    decode 0x50#8 a ignored = .ok (.call a) ∧
    (∀ ha : a.toNat < 8, 1 ≤ s.sp.toNat → s.pc ≤ 253 →
      ∃ t, exec (.call a) s = .next t ∧
        t.sp.toNat = s.sp.toNat - 1 ∧ t.pc = s.regs[a.toNat].toNat ∧
        (t.mem.read (s.sp.toNat - 1)).toNat = s.pc + 2 ∧
        (∀ x, x ≠ s.sp.toNat - 1 → t.mem.read x = s.mem.read x) ∧
        t = { s with sp := t.sp, pc := t.pc, mem := t.mem }) ∧
    (8 ≤ a.toNat → exec (.call a) s = .next (Claims.outOfBoundsAbort s (some 0x50#8) .reg a.toNat)) ∧
    (a.toNat < 8 → s.sp.toNat = 0 → exec (.call a) s = .next (Claims.outOfBoundsAbort s (some 0x50#8) .stack 0))

/-- R146; R142 and R204 for the stack bound and the abort (the spec's own choices D8, D10; entries 20, 5). RET: the PC at the byte
`sp` points to, `sp` one higher, nothing else; the stack bound. -/
def Obligations.RetPopsThePc : Prop :=
  ∀ (s : State) (ignored ignored' : Byte),
    decode 0x11#8 ignored ignored' = .ok .ret ∧
    (s.sp.toNat < 243 →
      ∃ t, exec .ret s = .next t ∧
        t.sp.toNat = s.sp.toNat + 1 ∧
        t = { s with sp := t.sp, pc := (s.mem.read s.sp.toNat).toNat }) ∧
    (243 ≤ s.sp.toNat → exec .ret s = .next (Claims.outOfBoundsAbort s (some 0x11#8) .stack s.sp.toNat))

/-- R162; R105 and R204 for the register check and its abort (the spec's own choices D9, D10; entries 8, 5). JMP: the PC at the
register's value, nothing else. -/
def Obligations.JmpSetsThePc : Prop :=
  ∀ (s : State) (a ignored : Byte),
    decode 0x54#8 a ignored = .ok (.jmp a) ∧
    (∀ ha : a.toNat < 8, exec (.jmp a) s = .next { s with pc := s.regs[a.toNat].toNat }) ∧
    (8 ≤ a.toNat → exec (.jmp a) s = .next (Claims.outOfBoundsAbort s (some 0x54#8) .reg a.toNat))

/-- R163; R105 and R204 for the register check, on a branch that falls through too, and its abort (the spec's own choices D9, D10;
entries 8, 5). JEQ: taken exactly when `fl` is EQUAL, else +2; `fl` is not cleared; the register check in both cases. -/
def Obligations.JeqBranchesOnEqual : Prop :=
  ∀ (s : State) (a ignored : Byte),
    decode 0x55#8 a ignored = .ok (.jeq a) ∧
    (∀ ha : a.toNat < 8,
      exec (.jeq a) s = .next { s with pc := if s.fl = .equal then s.regs[a.toNat].toNat else s.pc + 2 }) ∧
    (8 ≤ a.toNat → exec (.jeq a) s = .next (Claims.outOfBoundsAbort s (some 0x55#8) .reg a.toNat))

/-- R164; R105 and R204 for the register check, on a branch that falls through too, and its abort (the spec's own choices D9, D10;
entries 8, 5). JNE: taken exactly when `fl` is not EQUAL (UNSET, LESS_THAN, GREATER_THAN), else +2; `fl` is not cleared; the
register check in both cases. -/
def Obligations.JneBranchesOnNotEqual : Prop :=
  ∀ (s : State) (a ignored : Byte),
    decode 0x56#8 a ignored = .ok (.jne a) ∧
    (∀ ha : a.toNat < 8,
      exec (.jne a) s = .next { s with pc := if s.fl ≠ .equal then s.regs[a.toNat].toNat else s.pc + 2 }) ∧
    (8 ≤ a.toNat → exec (.jne a) s = .next (Claims.outOfBoundsAbort s (some 0x56#8) .reg a.toNat))

/-- R165, with the advance of 1 that is the spec's own choice (D13; entry 4). IRET changes nothing but the PC. -/
def Obligations.IretOnlyAdvances : Prop :=
  ∀ (s : State) (ignored ignored' : Byte),
    decode 0x13#8 ignored ignored' = .ok .iret ∧
    exec .iret s = .next { s with pc := s.pc + 1 }

/-- R108, with the PC that stays, which is the spec's own choice (D14; entry 9). HLT changes nothing but `run`. -/
def Obligations.HltHaltsInPlace : Prop :=
  ∀ (s : State) (ignored ignored' : Byte),
    decode 0x01#8 ignored ignored' = .ok .hlt ∧
    exec .hlt s = .next { s with run := .halted }

/-! ### The step -/

/-- R100, R109. While RUNNING, a step whose three bytes decode to `i` is the meaning of `i` at that state. -/
def Obligations.StepRunsTheDecodedInstruction : Prop :=
  ∀ (s : State) (i : Instr), s.run = .running → s.pc ≤ 253 →
    decode (s.mem.read s.pc) (s.mem.read (s.pc + 1)) (s.mem.read (s.pc + 2)) = .ok i →
    step s = exec i s

/-- R101, with the spec's own choice that all three bytes are checked for every opcode (D4; entry 7); R106 and R204 for what else
changes: only `run` and `err` (the spec's own choice D10; entry 5). -/
def Obligations.FetchPastMemoryAborts : Prop :=
  ∀ s : State, s.run = .running →
    (s.pc = 254 → step s = .next (Claims.outOfBoundsAbort s (some (s.mem.read 254)) .mem 256)) ∧
    (s.pc = 255 → step s = .next (Claims.outOfBoundsAbort s (some (s.mem.read 255)) .mem 256)) ∧
    (256 ≤ s.pc → step s = .next (Claims.outOfBoundsAbort s none .mem s.pc))

/-- R201; R204 for what else changes (the spec's own choice D10; entry 5), R78 for the bytes (D1; entry 3). An opcode byte outside
the map aborts, and the report holds the byte, its address and no detail. -/
def Obligations.UnlistedOpcodeAborts : Prop :=
  ∀ s : State, s.run = .running → s.pc ≤ 253 → s.mem.read s.pc ∉ Claims.opcodes →
    step s = .next { s with
      run := .aborted
      err := some ⟨.unsupportedOpcode, s.pc, some (s.mem.read s.pc), none⟩ }

/-- R208, R109, R101, R105, R141, R142, R203, R204. A step raises exactly the first check that fails, and only `run` and `err`
change then; when none fails it does not abort and leaves `err` alone. The list embodies these choices of the spec's own: the
opcode bytes (D1; entry 3), all three bytes are fetched (D4; entry 7), the stack bounds (D8; entry 20), every register field is
checked (D9; entry 8), an abort changes only `run` and `err` (D10; entry 5), the order of the last three checks (D11; entry 10).
-/
def Obligations.StepRaisesTheFirstFailingCheck : Prop :=
  ∀ s : State, s.run = .running →
    (∀ c, (Claims.checks s).find? (·.1) = some c →
      step s = .next { s with run := .aborted, err := some c.2 }) ∧
    ((Claims.checks s).find? (·.1) = none →
      ∃ t, step s = .next t ∧ t.run ≠ .aborted ∧ t.err = s.err)

/-- R100, R107, R204. Every instruction and every step of this machine answers a next state: every error is a transition (D10, in
the model's form; entry 5), and a terminal state answers itself (D25; entry 21). `exec` also answers where no step calls it (entry
18). -/
def Obligations.EveryStepAnswersNext : Prop :=
  (∀ (i : Instr) (s : State), ∃ t, exec i s = .next t) ∧ ∀ s : State, ∃ t, step s = .next t

/-- R105, R22, R79 (checked at decode for every register field: the spec's own choice, D9; entry 8), R106 and R204 (only `run` and
`err` change: D10; entry 5), R208 (field `a` before field `b`, and both before the stack bound: D11; entry 10). An instruction
with a register field of 8 or more raises for the first such field, whatever the rest of the state; and a report of the register
file names a register field of the instruction that is 8 or more. -/
def Obligations.InvalidRegisterFieldAborts : Prop :=
  (∀ (i : Instr) (s : State) (a : Byte), i.registerFields.find? (fun x => 8 ≤ x.toNat) = some a →
    exec i s = .next (Claims.outOfBoundsAbort s (encode i).head? .reg a.toNat)) ∧
  (∀ (i : Instr) (s t : State) (r : ErrorReport) (index : Nat), s.err = none → exec i s = .next t → t.err = some r →
    r.detail = some ⟨.reg, index⟩ → ∃ a ∈ i.registerFields, 8 ≤ a.toNat ∧ index = a.toNat)

/-- R203, R148: there are no other causes. A well-formed instruction with room on the stack does not abort. The stack bounds are
the spec's own choice D8 (R141, R142; entry 20), the register check is D9 (R105; entry 8). -/
def Obligations.WellFormedInstructionsComplete : Prop :=
  ∀ (i : Instr) (s : State), s.run = .running → i.wellFormed → Claims.stackRoom i s →
    ∃ t, exec i s = .next t ∧ t.clean ∧ t.err = s.err

/-- R204, R106, R205 (all-or-nothing: the spec's own choice, D10; entry 5). A step that aborts changes only `run` and `err`, and
the report names the failing address and the byte there, or no byte where it could not be fetched (R36, R101; the layout is D15;
entry 13). -/
def Obligations.AbortChangesOnlyRunAndErr : Prop :=
  ∀ s t : State, s.run = .running → step s = .next t → t.run = .aborted →
    ∃ r, t = { s with run := .aborted, err := some r } ∧
      r.pc = s.pc ∧ r.opcode = if s.pc < 256 then some (s.mem.read s.pc) else none

/-- R35, R36, R101, R107, R108, R204. HALTED is entered exactly by a HLT whose fetch stays in memory (a HLT byte at 254 or 255
aborts: the spec's own choice D4; entry 7); ABORTED is entered exactly when an error is reported (D10; entry 5); both are terminal
(D25; entry 21). -/
def Obligations.RunStateChanges : Prop :=
  ∀ s t : State, step s = .next t →
    (s.run = .running → (t.run = .halted ↔ s.pc ≤ 253 ∧ s.mem.read s.pc = 0x01#8)) ∧
    (s.run = .running → s.err = none → (t.run = .aborted ↔ t.err ≠ none)) ∧
    (s.run = .halted → t = s) ∧
    (s.run = .aborted → t = s)

/-- R107, R209 (the spec's own choice, D25; entry 21). From HALTED or ABORTED any number of steps changes nothing, and of the
host's moves (R40, R244; D2, D22; entries 22, 14) only a load does. -/
def Obligations.TerminalStatesAreFinal : Prop :=
  ∀ s : State, s.run ≠ .running →
    (∀ k, Sys2Proof.core.run k s = .next s) ∧
    (∀ mv t, hostMove mv s = .next t → t ≠ s → ∃ l, mv = .load l)

/-! ### What a step leaves alone, for all instructions -/

/-- R32. Only CMP writes `fl`: ADD and MUL set no flag, and nothing clears it. -/
def Obligations.OnlyCmpWritesFlags : Prop :=
  (∀ (i : Instr) (s t : State), exec i s = .next t → i.mnemonic ≠ .cmp → t.fl = s.fl) ∧
  (∀ s t : State, step s = .next t → t.fl ≠ s.fl → s.mem.read s.pc = 0xA7#8)

/-- R33. Only JEQ and JNE read `fl`, and only whether it is EQUAL: another `fl` gives the same step in every other field. What
`fl` is after the step is R32 (only CMP writes it), and R106 and R204 for a CMP that aborts and leaves it (the spec's own choice
D10; entry 5). -/
def Obligations.OnlyBranchesReadFlags : Prop :=
  ∀ (s t : State) (f : Flags), step s = .next t →
    (s.mem.read s.pc = 0x55#8 ∨ s.mem.read s.pc = 0x56#8 → (f = .equal ↔ s.fl = .equal)) →
    step { s with fl := f } = .next { t with
      fl := if s.mem.read s.pc = 0xA7#8 ∧ s.run = .running ∧ t.run = .running then t.fl else f }

/-- R21. Which registers an instruction writes and reads: every register it does not write is unchanged, and a register it does
not read has no effect on anything but itself, and none on itself where the instruction writes it: LDI and POP give their register
a value that does not depend on the one it held. That an instruction that aborts writes no register is R106 and R204 (the spec's
own choice D10; entry 5). -/
def Obligations.RegisterWritersAndReaders : Prop :=
  (∀ (i : Instr) (s t : State) (k : Fin 8), exec i s = .next t →
    (∀ a ∈ Claims.registersWritten i, a.toNat ≠ k) → t.regs[k] = s.regs[k]) ∧
  (∀ (i : Instr) (s t : State) (k : Fin 8) (v : Byte), exec i s = .next t →
    (∀ a ∈ Claims.registersRead i, a.toNat ≠ k) →
    ∃ regs, exec i { s with regs := s.regs.set k v } = .next { t with regs := regs } ∧
      (∀ j : Fin 8, j ≠ k → regs[j] = t.regs[j]) ∧
      ((∀ a ∈ Claims.registersWritten i, a.toNat ≠ k) → regs[k] = v) ∧
      ((∃ a ∈ Claims.registersWritten i, a.toNat = k) → s.run = .running →
        regs[k] = if t.run = .aborted then v else t.regs[k]))

/-- R28, R29, R140. Only PUSH, POP, CALL and RET write `sp`, each by one: down for PUSH and CALL, up for POP and RET. That it
never wraps is R141 and R142 (the spec's own choice D8; entry 20); that an abort leaves it is R204 (D10; entry 5). -/
def Obligations.OnlyStackInstructionsMoveSp : Prop :=
  ∀ s t : State, step s = .next t → t.sp ≠ s.sp →
    ((s.mem.read s.pc = 0x45#8 ∨ s.mem.read s.pc = 0x50#8) ∧ t.sp.toNat + 1 = s.sp.toNat) ∨
    ((s.mem.read s.pc = 0x46#8 ∨ s.mem.read s.pc = 0x11#8) ∧ t.sp.toNat = s.sp.toNat + 1)

/-- R38, R52. Only PUSH and CALL write memory, and only the cell below `sp`. The bound `sp >= 1` is R141 (the spec's own choice
D8; entry 20); that an abort leaves memory is R204 (D10; entry 5). -/
def Obligations.OnlyPushAndCallWriteMemory : Prop :=
  ∀ (s t : State) (x : Nat), step s = .next t → t.mem.read x ≠ s.mem.read x →
    (s.mem.read s.pc = 0x45#8 ∨ s.mem.read s.pc = 0x50#8) ∧ 1 ≤ s.sp.toNat ∧ x = s.sp.toNat - 1

/-- R43, R161. Only PRN emits, one value a step, after all earlier ones. A PRN without a valid register emits nothing: R105 and
R204 (the spec's own choices D9, D10; entries 8, 5). -/
def Obligations.OnlyPrnEmits : Prop :=
  ∀ s t : State, step s = .next t → t.out ≠ s.out →
    s.mem.read s.pc = 0x47#8 ∧ t.out = s.out ++ [Claims.registerValue s (s.mem.read (s.pc + 1))]

/-- R25, R103, R104, R74 (HLT's and IRET's rows are the spec's own choices, D14 and D13; entries 9, 4). An instruction that does
not abort leaves the PC at its row's "PC effect"; one that aborts leaves it: R106 and R204 (D10; entry 5). -/
def Obligations.PcFollowsTheTable : Prop :=
  ∀ (i : Instr) (s t : State), s.run = .running → exec i s = .next t →
    t.pc = if t.run = .aborted then s.pc else Claims.pcAfter i s

/-! ### Invariants and the host -/

/-- R26, R29, R36, R141, R142, R203, R204, R121 and the memory's canonical form (the model's form; entry 2): every step keeps a
legal state legal. It rests on the spec's own choices D3, D4, D8, D9, D10, D12, D15, D25 (entries 6, 7, 20, 8, 5, 11, 13, 21). -/
def Obligations.StepKeepsTheInvariant : Prop :=
  ∀ s t : State, s.Inv → step s = .next t → t.Inv

/-- The state after reset is legal (its register and memory values are the model's choice, entries 1 and 2). -/
def Obligations.ResetIsLegal : Prop := State.reset.Inv

/-- R244, R240, R241. Every move of the host keeps a legal state legal, whatever `REG_INIT` and `MEM_INIT` are. The moves and the
load are the spec's own choices D2, D5, D6, D22 (entries 22, 1, 2, 14); the step's part rests on those of StepKeepsTheInvariant.
-/
def Obligations.HostMovesKeepTheInvariant : Prop :=
  ∀ (mv : HostMove) (s t : State), s.Inv → (∀ l, mv = .load l → l.memInit.wf) → hostMove mv s = .next t → t.Inv

/-- R40, R240, R241 (the spec's own choices D5, D6, D7, D22; entries 1, 2, 19, 14). A load of an image that fits sets every piece
of state, for every value of `REG_INIT` and `MEM_INIT` and from every earlier state; a longer image changes nothing. -/
def Obligations.LoadSetsEveryPieceOfState : Prop :=
  ∀ (l : Load) (s : State),
    (l.image.length ≤ 256 →
      (loadPort l s).regs = l.regInit ∧ (loadPort l s).pc = l.pcInit.toNat ∧ (loadPort l s).sp = 0xF3#8 ∧
      (loadPort l s).fl = .unset ∧ (loadPort l s).run = .running ∧ (loadPort l s).err = none ∧
      (loadPort l s).out = [] ∧
      ∀ x, (loadPort l s).mem.read x = l.image.getD x (l.memInit.read x)) ∧
    (256 < l.image.length → loadPort l s = s)

/-- R30. `sp` is 0xF3 after reset and after every load that is accepted. -/
def Obligations.StackPointerStartsAtF3 : Prop :=
  State.reset.sp = 0xF3#8 ∧ ∀ (l : Load) (s : State), l.image.length ≤ 256 → (loadPort l s).sp = 0xF3#8

/-- R44 (the spec's own choice, D2; entry 22). The status is always readable, the rest of the state exactly when the run is over. -/
def Obligations.StatusAndFinalStatePorts : Prop :=
  ∀ s : State, statusPort s = (s.run, s.err) ∧
    (finalStatePort s = some s ↔ s.run = .halted ∨ s.run = .aborted) ∧
    (finalStatePort s = none ↔ s.run = .running)

/-! ### Two instructions in a row, memory, the ALU -/

/-- R140, R143, R144, R104. A PUSH and then a POP move the value and restore `sp`; only the cell below `sp` has changed in memory.
That both complete for these `sp` is R141 and R142 (the spec's own choice D8; entry 20). -/
def Obligations.PushThenPopMovesTheValue : Prop :=
  ∀ (s : State) (a b : Byte) (ha : a.toNat < 8) (hb : b.toNat < 8), 1 ≤ s.sp.toNat → s.sp.toNat ≤ 243 →
    ∃ t u, exec (.push a) s = .next t ∧ exec (.pop b) t = .next u ∧
      u.regs = s.regs.set b.toNat s.regs[a.toNat] hb ∧ u.sp = s.sp ∧ u.pc = s.pc + 6 ∧
      u.mem.read (s.sp.toNat - 1) = s.regs[a.toNat] ∧
      (∀ x, x ≠ s.sp.toNat - 1 → u.mem.read x = s.mem.read x) ∧
      u = { s with regs := u.regs, pc := u.pc, mem := u.mem }

/-- R140, R145, R146. A CALL and then a RET resume at the call's address + 2 with `sp` restored and every register unchanged. That
both complete for these `sp` is R141 and R142 (the spec's own choice D8; entry 20). -/
def Obligations.CallThenRetReturns : Prop :=
  ∀ (s : State) (a : Byte), a.toNat < 8 → 1 ≤ s.sp.toNat → s.sp.toNat ≤ 243 → s.pc ≤ 253 →
    ∃ t u, exec (.call a) s = .next t ∧ exec .ret t = .next u ∧
      u.pc = s.pc + 2 ∧ u = { s with pc := u.pc, mem := u.mem } ∧
      ∀ x, x ≠ s.sp.toNat - 1 → u.mem.read x = s.mem.read x

/-- R147. The core does not check matching: a RET after a PUSH goes to the pushed byte (R143, R146), and a POP after a CALL reads
the return address (R145, R144). That they complete for these `sp` is R141 and R142 (the spec's own choice D8; entry 20). -/
def Obligations.UnmatchedStackUseIsDefined : Prop :=
  ∀ (s : State) (a b : Byte) (ha : a.toNat < 8) (hb : b.toNat < 8), 1 ≤ s.sp.toNat → s.sp.toNat ≤ 243 →
    (∃ t u, exec (.push a) s = .next t ∧ exec .ret t = .next u ∧
      u.pc = s.regs[a.toNat].toNat ∧ u.sp = s.sp ∧ u.run = s.run) ∧
    (s.pc ≤ 253 → ∃ t u, exec (.call a) s = .next t ∧ exec (.pop b) t = .next u ∧
      u.regs[b.toNat].toNat = s.pc + 2 ∧ u.sp = s.sp ∧ u.run = s.run)

/-- R63, R58. A byte written by PUSH (R143) is what a later fetch of that address reads as its opcode. The bound `sp >= 1` is R141
(the spec's own choice D8; entry 20). -/
def Obligations.PushedByteIsFetched : Prop :=
  ∀ (s t : State) (a : Byte) (ha : a.toNat < 8), 1 ≤ s.sp.toNat → s.sp.toNat ≤ 243 → exec (.push a) s = .next t →
    ∃ w, fetch { t with pc := t.sp.toNat } = .ok w ∧ w.op = s.regs[a.toNat]

/-- The model's canonical form (entry 2): two memories in it that read alike at every address are the same data. -/
def Obligations.CanonicalMemoriesAreEqual : Prop :=
  ∀ m n : Memory, m.wf → n.wf → (∀ x, m.read x = n.read x) → m = n

/-- R51. An access at 256 or above raises with that address, without wrap; one below reads or writes exactly one cell. -/
def Obligations.MemoryAccessIsOneCellInBounds : Prop :=
  ∀ (s : State) (opcode : Option Byte) (addr : Nat) (v : Byte),
    (addr < 256 →
      memRead s opcode addr = .ok (s.mem.read addr) ∧
      ∃ t, memWrite s opcode addr v s = .ok t ∧
        (∀ x, t.mem.read x = if x = addr then v else s.mem.read x) ∧ t = { s with mem := t.mem }) ∧
    (256 ≤ addr →
      memRead s opcode addr = .error ⟨.outOfBoundsAccess, s.pc, opcode, some ⟨.mem, addr⟩⟩ ∧
      memWrite s opcode addr v s = .error ⟨.outOfBoundsAccess, s.pc, opcode, some ⟨.mem, addr⟩⟩)

/-- R121, R202 (the spec's own choice, D12; entry 11). The ALU answers `UnsupportedALUOperation` exactly for a select outside
{ADD, MUL, CMP}, and no step raises it. -/
def Obligations.AluRejectsOtherSelects : Prop :=
  (∀ (select : AluOp) (i j : Fin 8) (s : State),
    alu select i j s = .error .unsupportedALUOperation ↔ ∃ code, select = .other code) ∧
  (∀ (s t : State) (r : ErrorReport), s.run = .running → s.err = none → step s = .next t → t.err = some r →
    r.kind ≠ .unsupportedALUOperation)

/-- R120. ADD and MUL write `reg[a]` and CMP writes `fl`, nothing else, and what they write depends on `reg[a]` and `reg[b]` as
they were before the instruction and on nothing else, also where `a` and `b` are one register. -/
def Obligations.AluReadsItsOperandsBeforeItWrites : Prop :=
  (∃ sum : Byte → Byte → Byte, ∀ (i j : Fin 8) (s : State),
    alu .add i j s = .ok { s with regs := s.regs.set i (sum s.regs[i] s.regs[j]) }) ∧
  (∃ product : Byte → Byte → Byte, ∀ (i j : Fin 8) (s : State),
    alu .mul i j s = .ok { s with regs := s.regs.set i (product s.regs[i] s.regs[j]) }) ∧
  (∃ outcome : Byte → Byte → Flags, ∀ (i j : Fin 8) (s : State),
    alu .cmp i j s = .ok { s with fl := outcome s.regs[i] s.regs[j] })

/-! ### Encoding -/

/-- R70 to R74, for every opcode map that gives the 14 instructions one byte each (D1; entry 3). A window decodes to `i` exactly
when it is the bytes of `i` followed by ignored bytes. -/
def Obligations.DecodeIsTheInverseOfEncodeUnderAnyMap : Prop :=
  ∀ map : OpcodeMap, map.wellFormed → ∀ (op a b : Byte) (i : Instr),
    decodeWith map op a b = .ok i ↔ ∃ ignored, encodeWith map i ++ ignored = [op, a, b]

/-- R70, R71, R74 (the opcode bytes are the spec's own choice D1; entry 3). Every instruction, with every value of every operand
byte, decodes from its own bytes, whatever follows. -/
def Obligations.EncodedInstructionsDecode : Prop :=
  ∀ (i : Instr) (rest : List Byte), 2 ≤ rest.length → decodeBytes (encode i ++ rest) = .ok i

/-- R78, R74, R102 (the opcode bytes are the spec's own choice D1; entry 3). The decoder accepts exactly the 14 bytes of R74 and
names the byte it refuses. -/
def Obligations.DecoderAcceptsExactlyTheTable : Prop :=
  ∀ op a b : Byte,
    ((∃ i, decode op a b = .ok i) ↔ op ∈ Claims.opcodes) ∧
    (op ∉ Claims.opcodes → decode op a b = .error (.unsupportedOpcode op))

/-- R71, with the formats of R74 (the opcode bytes are the spec's own choice D1; entry 3). A byte the instruction does not use
never changes what is decoded. -/
def Obligations.IgnoredBytesDoNotMatter : Prop :=
  ∀ (op a b a' b' : Byte) (i : Instr), decode op a b = .ok i →
    (i.operandBytes.length = 0 → decode op a' b' = .ok i) ∧ (i.operandBytes.length = 1 → decode op a b' = .ok i)

/-- R82, R104, R251 (the pad byte's value and IRET's advance are the spec's own choices, D24 and D13; entries 15, 4). What an
assembler emits for an instruction ends where execution goes on. -/
def Obligations.AssembledCodeIsContiguous : Prop :=
  ∀ (i : Instr) (s t : State), s.run = .running → Claims.advances i s → exec i s = .next t → t.run = .running →
    t.pc = s.pc + (assemble i).length

/-- Words of the spec's own examples (43_branch_io.md, 41_alu.md, 42_stack_call.md, 40_decoder_dispatch.md) decode to the
instructions they stand for (R72, R74; the opcode bytes are the spec's own choice D1; entry 3). -/
def Obligations.WordsOfTheSpecDecode : Prop :=
  decode 0b10000010#8 0b00000000#8 0b00001000#8 = .ok (.ldi 0#8 8#8) ∧
  decode 0b10100000#8 0b00000000#8 0b00000001#8 = .ok (.add 0#8 1#8) ∧
  decode 0b01000101#8 0b00000010#8 0b00000000#8 = .ok (.push 2#8) ∧
  decode 0b01010110#8 0b00000011#8 0b11111111#8 = .ok (.jne 3#8) ∧
  decode 0b00000001#8 0b11111111#8 0b11111111#8 = .ok .hlt
end

