-- ==== Sys2Proof/Laws/Decode.lean ====
section
/-! SUPPORT. The decoder and the encoder, and what the opcode map says. -/

namespace Sys2Proof

/-- `OPCODE_MAP` gives each of the 14 instructions one byte of its own. -/
theorem opcodeMap_wellFormed : Config.opcodeMap.wellFormed := by decide

/-- The opcode byte of each instruction names it (R74). -/
theorem opcodeMap_row (m : Mnemonic) : Config.opcodeMap.mnemonicOf (opcodeOf m) = some m := by cases m <;> decide

/-- An instruction is made of its name and its operand bytes. -/
theorem instrOf_mnemonic (m : Mnemonic) (a b : Byte) : (instrOf m a b).mnemonic = m := by cases m <;> rfl

/-- What a successful decode says: the opcode byte names the instruction. -/
theorem decodeWith_ok {map : OpcodeMap} {op a b : Byte} {i : Instr} (h : decodeWith map op a b = .ok i) :
    map.mnemonicOf op = some i.mnemonic ∧ i = instrOf i.mnemonic a b := by
  unfold decodeWith at h
  split at h
  · next m hm => cases h; rw [instrOf_mnemonic]; exact ⟨hm, rfl⟩
  · cases h

/-- What a refused decode says: the opcode byte has no row, and the error names it (30_encoding.md R78). -/
theorem decodeWith_error {map : OpcodeMap} {op a b : Byte} {e : DecodeError} (h : decodeWith map op a b = .error e) :
    map.mnemonicOf op = none ∧ e = .unsupportedOpcode op := by
  unfold decodeWith at h
  split at h
  · cases h
  · next hm => cases h; exact ⟨hm, rfl⟩

/-- A byte that names an instruction is that instruction's opcode byte: no two bytes name one instruction. -/
theorem opcodeOf_of_mnemonicOf {op : Byte} {m : Mnemonic} (h : Config.opcodeMap.mnemonicOf op = some m) :
    op = opcodeOf m := by
  have all : ∀ op : Byte, ∀ m ∈ Config.opcodeMap.mnemonicOf op, op = opcodeOf m := by decide
  exact all op m h

/-- What a successful decode of the machine says of its first byte. -/
theorem decode_ok {op a b : Byte} {i : Instr} (h : decode op a b = .ok i) :
    op = opcodeOf i.mnemonic ∧ i = instrOf i.mnemonic a b :=
  ⟨opcodeOf_of_mnemonicOf (decodeWith_ok h).1, (decodeWith_ok h).2⟩

/-- The operand bytes of an instruction are as many as its format has (R72). -/
theorem operandBytes_length (i : Instr) : i.operandBytes.length = i.mnemonic.format.operandCount := by cases i <;> rfl

end Sys2Proof
end

