-- ==== Sys2Proof/Laws/State.lean ====
section
/-! SUPPORT. What each update of the state does to each field, one lemma each, so that no later proof unfolds a record update. -/

namespace Sys2Proof

/-! ### The parameters as numbers, for arithmetic -/

theorem Config.memSize_eq : Config.memSize = 256 := rfl
theorem Config.nreg_eq : Config.nreg = 8 := rfl
theorem Config.spInit_toNat : Config.spInit.toNat = 243 := rfl

namespace Machine

variable (s : State)

/-! ### setReg -/

@[simp] theorem State.setReg_regs (i : Fin Config.nreg) (v : Byte) : (s.setReg i v).regs = s.regs.set i v := rfl
@[simp] theorem State.setReg_pc (i : Fin Config.nreg) (v : Byte) : (s.setReg i v).pc = s.pc := rfl
@[simp] theorem State.setReg_sp (i : Fin Config.nreg) (v : Byte) : (s.setReg i v).sp = s.sp := rfl
@[simp] theorem State.setReg_fl (i : Fin Config.nreg) (v : Byte) : (s.setReg i v).fl = s.fl := rfl
@[simp] theorem State.setReg_run (i : Fin Config.nreg) (v : Byte) : (s.setReg i v).run = s.run := rfl
@[simp] theorem State.setReg_err (i : Fin Config.nreg) (v : Byte) : (s.setReg i v).err = s.err := rfl
@[simp] theorem State.setReg_mem (i : Fin Config.nreg) (v : Byte) : (s.setReg i v).mem = s.mem := rfl
@[simp] theorem State.setReg_out (i : Fin Config.nreg) (v : Byte) : (s.setReg i v).out = s.out := rfl

/-! ### setPc -/

@[simp] theorem State.setPc_regs (x : Nat) : (s.setPc x).regs = s.regs := rfl
@[simp] theorem State.setPc_pc (x : Nat) : (s.setPc x).pc = x := rfl
@[simp] theorem State.setPc_sp (x : Nat) : (s.setPc x).sp = s.sp := rfl
@[simp] theorem State.setPc_fl (x : Nat) : (s.setPc x).fl = s.fl := rfl
@[simp] theorem State.setPc_run (x : Nat) : (s.setPc x).run = s.run := rfl
@[simp] theorem State.setPc_err (x : Nat) : (s.setPc x).err = s.err := rfl
@[simp] theorem State.setPc_mem (x : Nat) : (s.setPc x).mem = s.mem := rfl
@[simp] theorem State.setPc_out (x : Nat) : (s.setPc x).out = s.out := rfl

/-! ### setSp -/

@[simp] theorem State.setSp_regs (x : Byte) : (s.setSp x).regs = s.regs := rfl
@[simp] theorem State.setSp_pc (x : Byte) : (s.setSp x).pc = s.pc := rfl
@[simp] theorem State.setSp_sp (x : Byte) : (s.setSp x).sp = x := rfl
@[simp] theorem State.setSp_fl (x : Byte) : (s.setSp x).fl = s.fl := rfl
@[simp] theorem State.setSp_run (x : Byte) : (s.setSp x).run = s.run := rfl
@[simp] theorem State.setSp_err (x : Byte) : (s.setSp x).err = s.err := rfl
@[simp] theorem State.setSp_mem (x : Byte) : (s.setSp x).mem = s.mem := rfl
@[simp] theorem State.setSp_out (x : Byte) : (s.setSp x).out = s.out := rfl

/-! ### setFl -/

@[simp] theorem State.setFl_regs (f : Flags) : (s.setFl f).regs = s.regs := rfl
@[simp] theorem State.setFl_pc (f : Flags) : (s.setFl f).pc = s.pc := rfl
@[simp] theorem State.setFl_sp (f : Flags) : (s.setFl f).sp = s.sp := rfl
@[simp] theorem State.setFl_fl (f : Flags) : (s.setFl f).fl = f := rfl
@[simp] theorem State.setFl_run (f : Flags) : (s.setFl f).run = s.run := rfl
@[simp] theorem State.setFl_err (f : Flags) : (s.setFl f).err = s.err := rfl
@[simp] theorem State.setFl_mem (f : Flags) : (s.setFl f).mem = s.mem := rfl
@[simp] theorem State.setFl_out (f : Flags) : (s.setFl f).out = s.out := rfl

/-! ### setCell -/

@[simp] theorem State.setCell_regs (addr : Nat) (v : Byte) : (s.setCell addr v).regs = s.regs := rfl
@[simp] theorem State.setCell_pc (addr : Nat) (v : Byte) : (s.setCell addr v).pc = s.pc := rfl
@[simp] theorem State.setCell_sp (addr : Nat) (v : Byte) : (s.setCell addr v).sp = s.sp := rfl
@[simp] theorem State.setCell_fl (addr : Nat) (v : Byte) : (s.setCell addr v).fl = s.fl := rfl
@[simp] theorem State.setCell_run (addr : Nat) (v : Byte) : (s.setCell addr v).run = s.run := rfl
@[simp] theorem State.setCell_err (addr : Nat) (v : Byte) : (s.setCell addr v).err = s.err := rfl
@[simp] theorem State.setCell_mem (addr : Nat) (v : Byte) : (s.setCell addr v).mem = s.mem.write addr v := rfl
@[simp] theorem State.setCell_out (addr : Nat) (v : Byte) : (s.setCell addr v).out = s.out := rfl

/-! ### emit -/

@[simp] theorem State.emit_regs (v : Byte) : (s.emit v).regs = s.regs := rfl
@[simp] theorem State.emit_pc (v : Byte) : (s.emit v).pc = s.pc := rfl
@[simp] theorem State.emit_sp (v : Byte) : (s.emit v).sp = s.sp := rfl
@[simp] theorem State.emit_fl (v : Byte) : (s.emit v).fl = s.fl := rfl
@[simp] theorem State.emit_run (v : Byte) : (s.emit v).run = s.run := rfl
@[simp] theorem State.emit_err (v : Byte) : (s.emit v).err = s.err := rfl
@[simp] theorem State.emit_mem (v : Byte) : (s.emit v).mem = s.mem := rfl
@[simp] theorem State.emit_out (v : Byte) : (s.emit v).out = s.out ++ [v] := rfl

/-! ### halt -/

@[simp] theorem State.halt_regs : s.halt.regs = s.regs := rfl
@[simp] theorem State.halt_pc : s.halt.pc = s.pc := rfl
@[simp] theorem State.halt_sp : s.halt.sp = s.sp := rfl
@[simp] theorem State.halt_fl : s.halt.fl = s.fl := rfl
@[simp] theorem State.halt_run : s.halt.run = .halted := rfl
@[simp] theorem State.halt_err : s.halt.err = s.err := rfl
@[simp] theorem State.halt_mem : s.halt.mem = s.mem := rfl
@[simp] theorem State.halt_out : s.halt.out = s.out := rfl

/-! ### abort -/

@[simp] theorem State.abort_regs (r : ErrorReport) : (s.abort r).regs = s.regs := rfl
@[simp] theorem State.abort_pc (r : ErrorReport) : (s.abort r).pc = s.pc := rfl
@[simp] theorem State.abort_sp (r : ErrorReport) : (s.abort r).sp = s.sp := rfl
@[simp] theorem State.abort_fl (r : ErrorReport) : (s.abort r).fl = s.fl := rfl
@[simp] theorem State.abort_run (r : ErrorReport) : (s.abort r).run = .aborted := rfl
@[simp] theorem State.abort_err (r : ErrorReport) : (s.abort r).err = some r := rfl
@[simp] theorem State.abort_mem (r : ErrorReport) : (s.abort r).mem = s.mem := rfl
@[simp] theorem State.abort_out (r : ErrorReport) : (s.abort r).out = s.out := rfl

/-! ### Registers read back -/

theorem State.reg_setReg (i j : Fin Config.nreg) (v : Byte) :
    (s.setReg i v).reg j = if j = i then v else s.reg j := by
  by_cases h : j = i
  · subst h; simp [State.reg]
  · have : (i : Nat) ≠ j := fun e => h (Fin.ext e.symm)
    simp [State.reg, h, Vector.getElem_set_ne, this]

@[simp] theorem State.reg_setReg_self (i : Fin Config.nreg) (v : Byte) : (s.setReg i v).reg i = v := by
  simp [State.reg_setReg]

/-- The stack pointer is one byte (10_state.md R28). -/
theorem State.sp_lt : s.sp.toNat < 256 := s.sp.isLt

/-! ### The PC result -/

@[simp] theorem PcResult.apply_advance (p n : Nat) : (PcResult.advance n).apply p s = s.setPc (p + n) := rfl
@[simp] theorem PcResult.apply_setPc (p : Nat) (x : Byte) : (PcResult.setPc x).apply p s = s.setPc x.toNat := rfl
@[simp] theorem PcResult.apply_halt (p : Nat) : PcResult.halt.apply p s = s.halt := rfl

end Machine
end Sys2Proof
end

