-- ==== Sys2Proof/Laws/Ops.lean ====
section
/-! SUPPORT. One lemma for each shared operation that says once everything it can do; the provers cite these and do not unfold it. -/

namespace Sys2Proof
namespace Machine

variable {s t : State}

/-! ### Commit -/

@[simp] theorem commit_ok (s t : State) (result : PcResult) :
    commit s (.ok (t, result)) = .next (result.apply s.pc t) := rfl

@[simp] theorem commit_error (s : State) (r : ErrorReport) : commit s (.error r) = .next (s.abort r) := rfl

/-- Everything a commit can do: a next state, either the handler's or the abort of the state it started in (R106). -/
theorem commit_next (h : commit s x = .next t) :
    (∃ r, x = .error r ∧ t = s.abort r) ∨ (∃ u result, x = .ok (u, result) ∧ t = result.apply s.pc u) := by
  cases x with
  | error r => exact .inl ⟨r, rfl, by simpa using h.symm⟩
  | ok p => obtain ⟨u, result⟩ := p; exact .inr ⟨u, result, rfl, by simpa using h.symm⟩

/-- A commit always answers a next state. -/
theorem commit_answers_next (s : State) (x) : ∃ t, commit s x = .next t := by
  rcases x with r | ⟨u, result⟩
  · exact ⟨_, rfl⟩
  · exact ⟨_, rfl⟩

/-! ### Sequencing checks -/

@[simp] theorem except_ok_bind {α β : Type} (a : α) (f : α → Except ErrorReport β) :
    ((Except.ok a : Except ErrorReport α) >>= f) = f a := rfl

@[simp] theorem except_error_bind {α β : Type} (r : ErrorReport) (f : α → Except ErrorReport β) :
    ((Except.error r : Except ErrorReport α) >>= f) = .error r := rfl

@[simp] theorem except_pure {α : Type} (a : α) : (pure a : Except ErrorReport α) = .ok a := rfl

/-- A sequence that succeeds has succeeded in its first part. -/
theorem except_bind_ok {α β : Type} {x : Except ErrorReport α} {f : α → Except ErrorReport β} {b : β}
    (h : (x >>= f) = .ok b) : ∃ a, x = .ok a ∧ f a = .ok b := by
  cases x with
  | error r => simp at h
  | ok a => exact ⟨a, rfl, h⟩

/-- A sequence that raises has raised in its first part or in the rest. -/
theorem except_bind_error {α β : Type} {x : Except ErrorReport α} {f : α → Except ErrorReport β} {r : ErrorReport}
    (h : (x >>= f) = .error r) : x = .error r ∨ ∃ a, x = .ok a ∧ f a = .error r := by
  cases x with
  | error q => simp at h; subst h; exact .inl rfl
  | ok a => exact .inr ⟨a, rfl, h⟩

/-! ### Register operands -/

theorem registerOperand_valid (s : State) (m : Mnemonic) {a : Byte} (h : a.toNat < Config.nreg) :
    registerOperand s m a = .ok ⟨a.toNat, h⟩ := by simp only [registerOperand, h, dite_true]

theorem registerOperand_invalid (s : State) (m : Mnemonic) {a : Byte} (h : ¬ a.toNat < Config.nreg) :
    registerOperand s m a = .error (boundsReport s (some (opcodeOf m)) .reg a.toNat) := by
  simp only [registerOperand, h, dite_false]

/-- A register operand that is read is the whole byte (30_encoding.md R75). -/
theorem registerOperand_ok {m : Mnemonic} {a : Byte} {i : Fin Config.nreg} (h : registerOperand s m a = .ok i) :
    (i : Nat) = a.toNat := by
  by_cases ha : a.toNat < Config.nreg
  · rw [registerOperand_valid s m ha] at h; cases h; rfl
  · rw [registerOperand_invalid s m ha] at h; cases h

/-- A register operand raises only for an index of 8 or more (10_state.md R22). -/
theorem registerOperand_error {m : Mnemonic} {a : Byte} {r : ErrorReport} (h : registerOperand s m a = .error r) :
    Config.nreg ≤ a.toNat ∧ r = boundsReport s (some (opcodeOf m)) .reg a.toNat := by
  by_cases ha : a.toNat < Config.nreg
  · rw [registerOperand_valid s m ha] at h; cases h
  · rw [registerOperand_invalid s m ha] at h; cases h; exact ⟨Nat.le_of_not_lt ha, rfl⟩

/-! ### Memory access -/

theorem memRead_inside (s : State) (opcode : Option Byte) {addr : Nat} (h : addr < Config.memSize) :
    memRead s opcode addr = .ok (s.mem.read addr) := if_pos h

theorem memRead_outside (s : State) (opcode : Option Byte) {addr : Nat} (h : ¬ addr < Config.memSize) :
    memRead s opcode addr = .error (boundsReport s opcode .mem addr) := if_neg h

theorem memWrite_inside (s t : State) (opcode : Option Byte) (v : Byte) {addr : Nat} (h : addr < Config.memSize) :
    memWrite s opcode addr v t = .ok (t.setCell addr v) := if_pos h

/-! ### Fetch -/

/-- A fetch at 253 or below reads its three bytes (40_decoder_dispatch.md R101). -/
theorem fetch_inside (s : State) (h : s.pc ≤ 253) :
    fetch s = .ok ⟨s.mem.read s.pc, s.mem.read (s.pc + 1), s.mem.read (s.pc + 2)⟩ := by
  have := Config.memSize_eq
  rw [fetch, memRead_inside s _ (by omega), except_ok_bind, memRead_inside s _ (by omega), except_ok_bind,
    memRead_inside s _ (by omega), except_ok_bind, except_pure]

/-- A fetch above 253 raises at the first address past the last cell; the opcode is known unless `pc` is that address (R101). -/
theorem fetch_outside (s : State) (h : ¬ s.pc ≤ 253) :
    fetch s = .error (boundsReport s (if s.pc < Config.memSize then some (s.mem.read s.pc) else none) .mem
      (max s.pc Config.memSize)) := by
  have := Config.memSize_eq
  by_cases h0 : s.pc < Config.memSize
  · rw [fetch, memRead_inside s _ h0, except_ok_bind, if_pos h0, Nat.max_eq_right (Nat.le_of_lt h0)]
    by_cases h1 : s.pc + 1 < Config.memSize
    · have e : s.pc + 2 = Config.memSize := by omega
      rw [memRead_inside s _ h1, except_ok_bind, memRead_outside s _ (by omega), except_error_bind, e]
    · have e : s.pc + 1 = Config.memSize := by omega
      rw [memRead_outside s _ h1, except_error_bind, e]
  · rw [fetch, memRead_outside s _ h0, except_error_bind, if_neg h0, Nat.max_eq_left (Nat.le_of_not_lt h0)]

/-! ### The stack -/

/-- A push with room writes below `sp` (42_stack_call.md R140). -/
theorem pushByte_room (m : Mnemonic) (v : Byte) (s : State) (h : s.sp ≠ 0) :
    pushByte m v s = .ok ((s.setSp (s.sp - 1)).setCell (s.sp - 1).toNat v) := by
  have h0 : s.sp.toNat ≠ 0 := fun e => h (BitVec.eq_of_toNat_eq e)
  have hlt := (s.sp - 1).isLt
  rw [pushByte, if_pos (by omega), memWrite_inside _ _ _ _ hlt]

/-- A push at `sp = 0` raises (R141). -/
theorem pushByte_full (m : Mnemonic) (v : Byte) (s : State) (h : s.sp = 0) :
    pushByte m v s = .error (boundsReport s (some (opcodeOf m)) .stack 0) := by
  simp [pushByte, h]

/-- A pop of a stack that is not empty reads at `sp` (R140). -/
theorem popByte_some (m : Mnemonic) (s : State) (h : s.sp.toNat < Config.spInit.toNat) :
    popByte m s = .ok (s.mem.read s.sp.toNat, s.setSp (s.sp + 1)) := by
  have hlt := s.sp_lt
  rw [popByte, if_pos h, memRead_inside s _ hlt, except_ok_bind, except_pure]

/-- A pop of an empty stack raises (R142). -/
theorem popByte_empty (m : Mnemonic) (s : State) (h : ¬ s.sp.toNat < Config.spInit.toNat) :
    popByte m s = .error (boundsReport s (some (opcodeOf m)) .stack s.sp.toNat) := if_neg h

/-- One below a stack pointer that is not 0. -/
theorem sp_sub_one_toNat (s : State) (h : s.sp ≠ 0) : (s.sp - 1).toNat = s.sp.toNat - 1 := by
  have h0 : s.sp.toNat ≠ 0 := fun e => h (BitVec.eq_of_toNat_eq e)
  have := s.sp_lt
  simp [BitVec.toNat_sub]; omega

/-- One above a stack pointer below `SP_INIT`. -/
theorem sp_add_one_toNat (s : State) (h : s.sp.toNat < Config.spInit.toNat) : (s.sp + 1).toNat = s.sp.toNat + 1 := by
  simp at h
  simp [BitVec.toNat_add]; omega

/-! ### The ALU -/

theorem alu_add (i j : Fin Config.nreg) (s : State) : alu .add i j s = .ok (s.setReg i (aluAdd (s.reg i) (s.reg j))) := rfl
theorem alu_mul (i j : Fin Config.nreg) (s : State) : alu .mul i j s = .ok (s.setReg i (aluMul (s.reg i) (s.reg j))) := rfl
theorem alu_cmp (i j : Fin Config.nreg) (s : State) :
    alu .cmp i j s = .ok (s.setFl (compareFlags (s.reg i) (s.reg j))) := rfl

@[simp] theorem aluAdd_toNat (x y : Byte) : (aluAdd x y).toNat = (x.toNat + y.toNat) % 256 := by simp [aluAdd]
@[simp] theorem aluMul_toNat (x y : Byte) : (aluMul x y).toNat = (x.toNat * y.toNat) % 256 := by simp [aluMul]

/-- An ALU handler on valid registers commits what the ALU answers, or its error. -/
theorem aluHandler_valid (m : Mnemonic) (select : AluOp) (a b : Byte) (s : State) (ha : a.toNat < Config.nreg)
    (hb : b.toNat < Config.nreg) :
    aluHandler m select a b s =
      match alu select ⟨a.toNat, ha⟩ ⟨b.toNat, hb⟩ s with
      | .ok t => .next (t.setPc (s.pc + 3))
      | .error kind => .next (s.abort (report s kind (some (opcodeOf m)) none)) := by
  rw [aluHandler, registerOperand_valid s m ha, registerOperand_valid s m hb]
  simp only [except_ok_bind]
  cases alu select ⟨a.toNat, ha⟩ ⟨b.toNat, hb⟩ s <;> rfl

end Machine
end Sys2Proof
end

