-- ==== Sys2Proof/Laws/Exec.lean ====
section
/-! SUPPORT. What the meaning of an instruction can do, said once: it completes, in one way, or it aborts at a register check
or at the stack bound. Claims about all instructions follow by cases on `exec_cases`. -/

namespace Sys2Proof
namespace Machine

/-- An instruction that completes: the state it leaves, one rule per instruction. -/
inductive Completed (s : State) : Instr → State → Prop
  | hlt : Completed s .hlt s.halt
  | ldi {a imm : Byte} (ha : a.toNat < Config.nreg) :
      Completed s (.ldi a imm) ((s.setReg ⟨a.toNat, ha⟩ imm).setPc (s.pc + 3))
  | prn {a : Byte} (ha : a.toNat < Config.nreg) :
      Completed s (.prn a) ((s.emit (s.reg ⟨a.toNat, ha⟩)).setPc (s.pc + 2))
  | add {a b : Byte} (ha : a.toNat < Config.nreg) (hb : b.toNat < Config.nreg) :
      Completed s (.add a b)
        ((s.setReg ⟨a.toNat, ha⟩ (aluAdd (s.reg ⟨a.toNat, ha⟩) (s.reg ⟨b.toNat, hb⟩))).setPc (s.pc + 3))
  | mul {a b : Byte} (ha : a.toNat < Config.nreg) (hb : b.toNat < Config.nreg) :
      Completed s (.mul a b)
        ((s.setReg ⟨a.toNat, ha⟩ (aluMul (s.reg ⟨a.toNat, ha⟩) (s.reg ⟨b.toNat, hb⟩))).setPc (s.pc + 3))
  | cmp {a b : Byte} (ha : a.toNat < Config.nreg) (hb : b.toNat < Config.nreg) :
      Completed s (.cmp a b)
        ((s.setFl (compareFlags (s.reg ⟨a.toNat, ha⟩) (s.reg ⟨b.toNat, hb⟩))).setPc (s.pc + 3))
  | push {a : Byte} (ha : a.toNat < Config.nreg) (hs : s.sp ≠ 0) :
      Completed s (.push a)
        (((s.setSp (s.sp - 1)).setCell (s.sp - 1).toNat (s.reg ⟨a.toNat, ha⟩)).setPc (s.pc + 3))
  | pop {a : Byte} (ha : a.toNat < Config.nreg) (hs : s.sp.toNat < Config.spInit.toNat) :
      Completed s (.pop a)
        (((s.setSp (s.sp + 1)).setReg ⟨a.toNat, ha⟩ (s.mem.read s.sp.toNat)).setPc (s.pc + 3))
  | call {a : Byte} (ha : a.toNat < Config.nreg) (hs : s.sp ≠ 0) :
      Completed s (.call a)
        (((s.setSp (s.sp - 1)).setCell (s.sp - 1).toNat (returnAddress s.pc)).setPc (s.reg ⟨a.toNat, ha⟩).toNat)
  | ret (hs : s.sp.toNat < Config.spInit.toNat) :
      Completed s .ret ((s.setSp (s.sp + 1)).setPc (s.mem.read s.sp.toNat).toNat)
  | jmp {a : Byte} (ha : a.toNat < Config.nreg) :
      Completed s (.jmp a) (s.setPc (s.reg ⟨a.toNat, ha⟩).toNat)
  | jeq {a : Byte} (ha : a.toNat < Config.nreg) :
      Completed s (.jeq a) (s.setPc (if s.fl = .equal then (s.reg ⟨a.toNat, ha⟩).toNat else s.pc + 2))
  | jne {a : Byte} (ha : a.toNat < Config.nreg) :
      Completed s (.jne a) (s.setPc (if s.fl = .equal then s.pc + 2 else (s.reg ⟨a.toNat, ha⟩).toNat))
  | iret : Completed s .iret (s.setPc (s.pc + Config.iretAdvance))

/-- The stack bound an instruction fails (42_stack_call.md R141, R142). -/
inductive StackFails (s : State) : Instr → Prop
  | push {a : Byte} (hs : s.sp = 0) : StackFails s (.push a)
  | call {a : Byte} (hs : s.sp = 0) : StackFails s (.call a)
  | pop {a : Byte} (hs : ¬ s.sp.toNat < Config.spInit.toNat) : StackFails s (.pop a)
  | ret (hs : ¬ s.sp.toNat < Config.spInit.toNat) : StackFails s .ret

/-- The state an instruction leaves when its register field `a` is no valid index. -/
def registerAbort (i : Instr) (a : Byte) (s : State) : State :=
  s.abort (boundsReport s (some (opcodeOf i.mnemonic)) .reg a.toNat)

/-- The state an instruction leaves when its stack bound fails. -/
def stackAbort (i : Instr) (s : State) : State :=
  s.abort (boundsReport s (some (opcodeOf i.mnemonic)) .stack s.sp.toNat)

variable {s t : State} {i : Instr}

theorem isEqual_iff (f : Flags) : f.isEqual = true ↔ f = .equal := by cases f <;> simp [Flags.isEqual]

/-- The checks of an instruction passed: what it answers. -/
theorem exec_of_completed (h : Completed s i t) : exec i s = .next t := by
  cases h with
  | hlt => rfl
  | ldi ha => simp [exec, execLdi, registerOperand_valid s _ ha, immediateOperand]
  | prn ha => simp [exec, execPrn, registerOperand_valid s _ ha]
  | add ha hb => simp only [exec, execAdd, aluHandler_valid _ _ _ _ _ ha hb, alu_add]
  | mul ha hb => simp only [exec, execMul, aluHandler_valid _ _ _ _ _ ha hb, alu_mul]
  | cmp ha hb => simp only [exec, execCmp, aluHandler_valid _ _ _ _ _ ha hb, alu_cmp]
  | push ha hs => rw [exec, execPush, registerOperand_valid s _ ha, except_ok_bind, pushByte_room _ _ s hs]; rfl
  | pop ha hs => rw [exec, execPop, registerOperand_valid s _ ha, except_ok_bind, popByte_some _ s hs]; rfl
  | call ha hs => rw [exec, execCall, registerOperand_valid s _ ha, except_ok_bind, pushByte_room _ _ s hs]; rfl
  | ret hs => rw [exec, execRet, popByte_some _ s hs]; rfl
  | jmp ha => simp [exec, execJmp, registerOperand_valid s _ ha]
  | jeq ha => cases hf : s.fl <;> simp [exec, execJeq, registerOperand_valid s _ ha, Flags.isEqual, hf]
  | jne ha => cases hf : s.fl <;> simp [exec, execJne, registerOperand_valid s _ ha, Flags.isEqual, hf]
  | iret => rfl

/-- The first register field that is no valid index aborts the instruction (40_decoder_dispatch.md R105). -/
theorem exec_of_register_invalid {a : Byte} (h : i.registerFields.find? (fun x => decide (Config.nreg ≤ x.toNat)) = some a) :
    exec i s = .next (registerAbort i a s) := by
  have one : ∀ {x : Byte}, [x].find? (fun x => decide (Config.nreg ≤ x.toNat)) = some a →
      ¬ x.toNat < Config.nreg ∧ x = a := by
    intro x hx; simp [List.find?_cons] at hx
    split at hx <;> simp_all
  have two : ∀ {x y : Byte}, [x, y].find? (fun x => decide (Config.nreg ≤ x.toNat)) = some a →
      (¬ x.toNat < Config.nreg ∧ x = a) ∨ (x.toNat < Config.nreg ∧ ¬ y.toNat < Config.nreg ∧ y = a) := by
    intro x y hx
    by_cases hlt : x.toNat < Config.nreg
    · refine .inr ⟨hlt, one ?_⟩
      have : ¬ Config.nreg ≤ x.toNat := Nat.not_le.2 hlt
      simpa [List.find?_cons, this] using hx
    · refine .inl ⟨hlt, ?_⟩
      have : Config.nreg ≤ x.toNat := Nat.le_of_not_lt hlt
      simpa [List.find?_cons, this] using hx
  have alu : ∀ (m : Mnemonic) (select : AluOp) (x y : Byte),
      [x, y].find? (fun x => decide (Config.nreg ≤ x.toNat)) = some a →
      aluHandler m select x y s = .next (s.abort (boundsReport s (some (opcodeOf m)) .reg a.toNat)) := by
    intro m select x y hx
    rcases two hx with ⟨hlt, rfl⟩ | ⟨hok, hlt, rfl⟩
    · simp [aluHandler, registerOperand_invalid s m hlt]
    · simp [aluHandler, registerOperand_valid s m hok, registerOperand_invalid s m hlt]
  cases i with
  | hlt => simp [Instr.registerFields] at h
  | ret => simp [Instr.registerFields] at h
  | iret => simp [Instr.registerFields] at h
  | ldi x imm => obtain ⟨hlt, rfl⟩ := one h; rw [exec, execLdi, registerOperand_invalid s _ hlt]; rfl
  | prn x => obtain ⟨hlt, rfl⟩ := one h; rw [exec, execPrn, registerOperand_invalid s _ hlt]; rfl
  | add x y => exact alu .add .add x y h
  | mul x y => exact alu .mul .mul x y h
  | cmp x y => exact alu .cmp .cmp x y h
  | push x => obtain ⟨hlt, rfl⟩ := one h; rw [exec, execPush, registerOperand_invalid s _ hlt]; rfl
  | pop x => obtain ⟨hlt, rfl⟩ := one h; rw [exec, execPop, registerOperand_invalid s _ hlt]; rfl
  | call x => obtain ⟨hlt, rfl⟩ := one h; rw [exec, execCall, registerOperand_invalid s _ hlt]; rfl
  | jmp x => obtain ⟨hlt, rfl⟩ := one h; rw [exec, execJmp, registerOperand_invalid s _ hlt]; rfl
  | jeq x => obtain ⟨hlt, rfl⟩ := one h; rw [exec, execJeq, registerOperand_invalid s _ hlt]; rfl
  | jne x => obtain ⟨hlt, rfl⟩ := one h; rw [exec, execJne, registerOperand_invalid s _ hlt]; rfl

/-- A well-formed instruction whose stack bound fails aborts (42_stack_call.md R141, R142). -/
theorem exec_of_stack_fails (hw : i.wellFormed) (h : StackFails s i) : exec i s = .next (stackAbort i s) := by
  cases h with
  | @push a hs =>
    have ha : a.toNat < Config.nreg := hw a (by simp [Instr.registerFields])
    rw [exec, execPush, registerOperand_valid s _ ha, except_ok_bind, pushByte_full _ _ s hs]
    simp [stackAbort, Instr.mnemonic, hs]
  | @call a hs =>
    have ha : a.toNat < Config.nreg := hw a (by simp [Instr.registerFields])
    rw [exec, execCall, registerOperand_valid s _ ha, except_ok_bind, pushByte_full _ _ s hs]
    simp [stackAbort, Instr.mnemonic, hs]
  | @pop a hs =>
    have ha : a.toNat < Config.nreg := hw a (by simp [Instr.registerFields])
    rw [exec, execPop, registerOperand_valid s _ ha, except_ok_bind, popByte_empty _ s hs]; rfl
  | ret hs => rw [exec, execRet, popByte_empty _ s hs]; rfl

/-- A well-formed instruction completes or fails its stack bound. -/
theorem completed_or_stack_fails (s : State) (i : Instr) (hw : i.wellFormed) : (∃ t, Completed s i t) ∨ StackFails s i := by
  cases i with
  | hlt => exact .inl ⟨_, .hlt⟩
  | iret => exact .inl ⟨_, .iret⟩
  | ldi a imm => exact .inl ⟨_, .ldi (hw a (by simp [Instr.registerFields]))⟩
  | prn a => exact .inl ⟨_, .prn (hw a (by simp [Instr.registerFields]))⟩
  | add a b => exact .inl ⟨_, .add (hw a (by simp [Instr.registerFields])) (hw b (by simp [Instr.registerFields]))⟩
  | mul a b => exact .inl ⟨_, .mul (hw a (by simp [Instr.registerFields])) (hw b (by simp [Instr.registerFields]))⟩
  | cmp a b => exact .inl ⟨_, .cmp (hw a (by simp [Instr.registerFields])) (hw b (by simp [Instr.registerFields]))⟩
  | jmp a => exact .inl ⟨_, .jmp (hw a (by simp [Instr.registerFields]))⟩
  | jeq a => exact .inl ⟨_, .jeq (hw a (by simp [Instr.registerFields]))⟩
  | jne a => exact .inl ⟨_, .jne (hw a (by simp [Instr.registerFields]))⟩
  | push a =>
    by_cases hs : s.sp = 0
    · exact .inr (.push hs)
    · exact .inl ⟨_, .push (hw a (by simp [Instr.registerFields])) hs⟩
  | call a =>
    by_cases hs : s.sp = 0
    · exact .inr (.call hs)
    · exact .inl ⟨_, .call (hw a (by simp [Instr.registerFields])) hs⟩
  | pop a =>
    by_cases hs : s.sp.toNat < Config.spInit.toNat
    · exact .inl ⟨_, .pop (hw a (by simp [Instr.registerFields])) hs⟩
    · exact .inr (.pop hs)
  | ret =>
    by_cases hs : s.sp.toNat < Config.spInit.toNat
    · exact .inl ⟨_, .ret hs⟩
    · exact .inr (.ret hs)

/-- Everything the meaning of an instruction can do: the abort of its first invalid register field, the abort of its stack
bound, or its completion. -/
theorem exec_cases (h : exec i s = .next t) :
    (∃ a, i.registerFields.find? (fun x => decide (Config.nreg ≤ x.toNat)) = some a ∧ t = registerAbort i a s) ∨
    (i.wellFormed ∧ StackFails s i ∧ t = stackAbort i s) ∨
    (i.wellFormed ∧ Completed s i t) := by
  cases hf : i.registerFields.find? (fun x => decide (Config.nreg ≤ x.toNat)) with
  | some a =>
    rw [exec_of_register_invalid hf] at h
    exact .inl ⟨a, rfl, by simpa using h.symm⟩
  | none =>
    have hw : i.wellFormed := fun a ha => by
      have := List.find?_eq_none.1 hf a ha
      simpa using this
    rcases completed_or_stack_fails s i hw with ⟨u, hu⟩ | hs
    · rw [exec_of_completed hu] at h
      have : u = t := by simpa using h
      exact .inr (.inr ⟨hw, this ▸ hu⟩)
    · rw [exec_of_stack_fails hw hs] at h
      exact .inr (.inl ⟨hw, hs, by simpa using h.symm⟩)

end Machine
end Sys2Proof
end

