-- ==== Sys2Proof/Laws/Memory.lean ====
section
/-! SUPPORT. The laws of memory: a read after a write, and the canonical form every memory operation keeps. -/

namespace Sys2Proof
namespace Machine

/-- An address that no cell lists reads as the fill byte. -/
theorem Memory.read_of_absent (m : Memory) (addr : Nat) (h : ∀ c ∈ m, c.1 ≠ addr) : m.read addr = fillByte := by
  induction m with
  | nil => rfl
  | cons c rest ih =>
    obtain ⟨a, w⟩ := c
    have ha : a ≠ addr := h (a, w) (by simp)
    simp [Memory.read, ha, ih fun c hc => h c (by simp [hc])]

/-- Without the cells of one address, that address reads as the fill byte and every other as before. -/
theorem Memory.read_filter (m : Memory) (addr x : Nat) :
    Memory.read (m.filter (fun c => c.1 != addr)) x = if x = addr then fillByte else m.read x := by
  induction m with
  | nil => simp [Memory.read]
  | cons c rest ih =>
    obtain ⟨a, w⟩ := c
    by_cases ha : a = addr
    · subst ha
      by_cases hx : x = a <;> simp_all [Memory.read, eq_comm]
    · by_cases hx : a = x
      · subst hx; simp [Memory.read, ha]
      · simp [Memory.read, ha, hx, ih]

/-- A cell placed among cells of other addresses is read back, and the others read as before. -/
theorem Memory.read_place (m : Memory) (addr x : Nat) (v : Byte) (h : ∀ c ∈ m, c.1 ≠ addr) :
    Memory.read (Memory.place addr v m) x = if x = addr then v else m.read x := by
  induction m with
  | nil => by_cases hx : addr = x <;> simp [Memory.place, Memory.read, hx, eq_comm]
  | cons c rest ih =>
    obtain ⟨a, w⟩ := c
    have ha : a ≠ addr := h (a, w) (by simp)
    have ih := ih fun c hc => h c (by simp [hc])
    unfold Memory.place
    split
    · by_cases hx : addr = x <;> simp [Memory.read, hx, eq_comm]
    · by_cases hx : a = x
      · subst hx; simp [Memory.read, ha]
      · simp [Memory.read, hx, ih]

/-- The read after a write (20_memory.md R60): the written cell holds the value, every other is unchanged. -/
theorem Memory.read_write (m : Memory) (addr x : Nat) (v : Byte) :
    (m.write addr v).read x = if x = addr then v else m.read x := by
  unfold Memory.write
  simp only
  split
  · next h => rw [Memory.read_filter, h]
  · rw [Memory.read_place _ _ _ _ (by intro c hc; simpa using (List.mem_filter.1 hc).2), Memory.read_filter]
    split <;> rfl

@[simp] theorem Memory.read_write_self (m : Memory) (addr : Nat) (v : Byte) : (m.write addr v).read addr = v := by
  simp [Memory.read_write]

/-- What `place` lists: the new cell and the old ones. -/
theorem Memory.mem_place (m : Memory) (addr : Nat) (v : Byte) (c : Host.Cell) :
    c ∈ Memory.place addr v m ↔ c = (addr, v) ∨ c ∈ m := by
  induction m with
  | nil => simp [Memory.place]
  | cons d rest ih =>
    unfold Memory.place
    split
    · simp
    · simp only [List.mem_cons, ih]; tauto

/-- `place` keeps the addresses rising. -/
theorem Memory.place_pairwise (m : Memory) (addr : Nat) (v : Byte) (h : ∀ c ∈ m, c.1 ≠ addr)
    (hm : m.Pairwise fun c d => c.1 < d.1) : (Memory.place addr v m).Pairwise fun c d => c.1 < d.1 := by
  induction m with
  | nil => simp [Memory.place]
  | cons c rest ih =>
    obtain ⟨hc, hrest⟩ := List.pairwise_cons.1 hm
    have hne : c.1 ≠ addr := h c (by simp)
    unfold Memory.place
    split
    · next hlt =>
      refine List.pairwise_cons.2 ⟨fun d hd => ?_, hm⟩
      rcases List.mem_cons.1 hd with rfl | hd
      · exact hlt
      · exact lt_trans hlt (hc d hd)
    · next hlt =>
      refine List.pairwise_cons.2 ⟨fun d hd => ?_, ih (fun d hd => h d (by simp [hd])) hrest⟩
      rcases (Memory.mem_place rest addr v d).1 hd with rfl | hd
      · simp only at hlt hne ⊢; omega
      · exact hc d hd

/-- A write inside the address space keeps the canonical form. -/
theorem Memory.write_wf (m : Memory) (addr : Nat) (v : Byte) (hm : m.wf) (ha : addr < Config.memSize) :
    (m.write addr v).wf := by
  have hf : Memory.wf (m.filter fun c => c.1 != addr) :=
    ⟨hm.1.filter _, fun c hc => hm.2 c (List.mem_filter.1 hc).1⟩
  unfold Memory.write
  simp only
  split
  · exact hf
  · next hv =>
    refine ⟨Memory.place_pairwise _ _ _ (fun c hc => by simpa using (List.mem_filter.1 hc).2) hf.1, fun c hc => ?_⟩
    rcases (Memory.mem_place _ _ _ c).1 hc with rfl | hc
    · exact ⟨ha, hv⟩
    · exact hf.2 c hc

/-- Storing bytes keeps the canonical form. -/
theorem Memory.store_wf (m : Memory) (addr : Nat) (bs : List Byte) (hm : m.wf) : (m.store addr bs).wf := by
  induction bs generalizing m addr with
  | nil => exact hm
  | cons b bs ih =>
    unfold Memory.store
    split
    · exact ih _ _ (Memory.write_wf m addr b hm ‹_›)
    · exact ih _ _ hm

/-- Storing bytes leaves every address below the first one alone. -/
theorem Memory.read_store_below (m : Memory) (addr x : Nat) (bs : List Byte) (hx : x < addr) :
    (m.store addr bs).read x = m.read x := by
  induction bs generalizing m addr with
  | nil => rfl
  | cons b bs ih =>
    unfold Memory.store
    rw [ih _ _ (by omega)]
    split
    · rw [Memory.read_write, if_neg (by omega)]
    · rfl

/-- The reset memory lists nothing. -/
theorem Memory.reset_wf : State.reset.mem.wf := by decide

end Machine
end Sys2Proof
end

