-- ==== Sys2Proof/Laws/PerInstr.lean ====
section
/-! SUPPORT. A statement about every instruction as data, one lemma per constructor: its bytes are its opcode byte and its
operand fields, as many as its format has, and its opcode byte names it. -/

namespace Sys2Proof

/-- The shape of an instruction's encoding (30_encoding.md R70, R72, R73, R74). -/
def Laws.EncodingShape.Statement (i : Instr) : Prop :=
  encode i = opcodeOf i.mnemonic :: i.operandBytes ∧
  (encode i).length = 1 + i.mnemonic.format.operandCount ∧
  Config.opcodeMap.mnemonicOf (opcodeOf i.mnemonic) = some i.mnemonic ∧
  i.registerFields = i.operandBytes.take (if i.mnemonic.format = .f2RI then 1 else i.mnemonic.format.operandCount)

theorem Laws.EncodingShape.hlt : Laws.EncodingShape.Statement .hlt := ⟨rfl, rfl, opcodeMap_row _, rfl⟩
theorem Laws.EncodingShape.ldi (a imm : Byte) : Laws.EncodingShape.Statement (.ldi a imm) := ⟨rfl, rfl, opcodeMap_row _, rfl⟩
theorem Laws.EncodingShape.prn (a : Byte) : Laws.EncodingShape.Statement (.prn a) := ⟨rfl, rfl, opcodeMap_row _, rfl⟩
theorem Laws.EncodingShape.add (a b : Byte) : Laws.EncodingShape.Statement (.add a b) := ⟨rfl, rfl, opcodeMap_row _, rfl⟩
theorem Laws.EncodingShape.mul (a b : Byte) : Laws.EncodingShape.Statement (.mul a b) := ⟨rfl, rfl, opcodeMap_row _, rfl⟩
theorem Laws.EncodingShape.cmp (a b : Byte) : Laws.EncodingShape.Statement (.cmp a b) := ⟨rfl, rfl, opcodeMap_row _, rfl⟩
theorem Laws.EncodingShape.push (a : Byte) : Laws.EncodingShape.Statement (.push a) := ⟨rfl, rfl, opcodeMap_row _, rfl⟩
theorem Laws.EncodingShape.pop (a : Byte) : Laws.EncodingShape.Statement (.pop a) := ⟨rfl, rfl, opcodeMap_row _, rfl⟩
theorem Laws.EncodingShape.call (a : Byte) : Laws.EncodingShape.Statement (.call a) := ⟨rfl, rfl, opcodeMap_row _, rfl⟩
theorem Laws.EncodingShape.ret : Laws.EncodingShape.Statement .ret := ⟨rfl, rfl, opcodeMap_row _, rfl⟩
theorem Laws.EncodingShape.jmp (a : Byte) : Laws.EncodingShape.Statement (.jmp a) := ⟨rfl, rfl, opcodeMap_row _, rfl⟩
theorem Laws.EncodingShape.jeq (a : Byte) : Laws.EncodingShape.Statement (.jeq a) := ⟨rfl, rfl, opcodeMap_row _, rfl⟩
theorem Laws.EncodingShape.jne (a : Byte) : Laws.EncodingShape.Statement (.jne a) := ⟨rfl, rfl, opcodeMap_row _, rfl⟩
theorem Laws.EncodingShape.iret : Laws.EncodingShape.Statement .iret := ⟨rfl, rfl, opcodeMap_row _, rfl⟩

end Sys2Proof
end

