-- ==== Sys2Proof/Laws/Step.lean ====
section
/-! SUPPORT. What one step can do, said once. -/

namespace Sys2Proof
namespace Machine

variable {s t : State}

/-- A step that answers `t` did one of four things: nothing, in a terminal state; the abort of a fetch; the abort of a
decode; or the meaning of the instruction it decoded. -/
theorem step_cases (h : step s = .next t) :
    (s.run ≠ .running ∧ t = s) ∨
    (s.run = .running ∧ ∃ r, fetch s = .error r ∧ t = s.abort r) ∨
    (s.run = .running ∧ ∃ w e, fetch s = .ok w ∧ decode w.op w.a w.b = .error e ∧
      t = s.abort (report s .unsupportedOpcode (some w.op) none)) ∨
    (s.run = .running ∧ ∃ w i, fetch s = .ok w ∧ decode w.op w.a w.b = .ok i ∧ exec i s = .next t) := by
  unfold step at h
  split at h
  · next hr =>
    split at h
    · next r hf => cases h; exact .inr (.inl ⟨hr, r, hf, rfl⟩)
    · next w hf =>
      split at h
      · next e hd => cases h; exact .inr (.inr (.inl ⟨hr, w, e, hf, hd, rfl⟩))
      · next i hd => exact .inr (.inr (.inr ⟨hr, w, i, hf, hd, h⟩))
  · next hr => cases h; exact .inl ⟨by simp [hr], rfl⟩
  · next hr => cases h; exact .inl ⟨by simp [hr], rfl⟩

/-- A fetch that succeeds read at 253 or below. -/
theorem fetch_ok {w : Window} (h : fetch s = .ok w) :
    s.pc ≤ 253 ∧ w = ⟨s.mem.read s.pc, s.mem.read (s.pc + 1), s.mem.read (s.pc + 2)⟩ := by
  by_cases hp : s.pc ≤ 253
  · rw [fetch_inside s hp] at h; cases h; exact ⟨hp, rfl⟩
  · rw [fetch_outside s hp] at h; cases h

/-- A fetch that raises did so above 253. -/
theorem fetch_error {r : ErrorReport} (h : fetch s = .error r) :
    ¬ s.pc ≤ 253 ∧ r = boundsReport s (if s.pc < Config.memSize then some (s.mem.read s.pc) else none) .mem
      (max s.pc Config.memSize) := by
  by_cases hp : s.pc ≤ 253
  · rw [fetch_inside s hp] at h; cases h
  · rw [fetch_outside s hp] at h; cases h; exact ⟨hp, rfl⟩

/-- A state that a machine's step leaves alone is left alone by any number of steps. -/
theorem run_of_fixed (M : Host.Core) (s : M.State) (h : M.step s = .next s) (k : Nat) : M.run k s = .next s := by
  induction k with
  | zero => rfl
  | succ k ih => simp only [Host.Core.run, h]; exact ih

/-- The four places a step can raise, each with its report. -/
inductive Raises (s : State) : ErrorReport → Prop
  | fetch (hp : ¬ s.pc ≤ 253) :
      Raises s (boundsReport s (if s.pc < Config.memSize then some (s.mem.read s.pc) else none) .mem
        (max s.pc Config.memSize))
  | decode (hp : s.pc ≤ 253) :
      Raises s (report s .unsupportedOpcode (some (s.mem.read s.pc)) none)
  | register (hp : s.pc ≤ 253) (a : Byte) (ha : Config.nreg ≤ a.toNat) :
      Raises s (boundsReport s (some (s.mem.read s.pc)) .reg a.toNat)
  | stack (hp : s.pc ≤ 253) (i : Instr) (hs : StackFails s i) :
      Raises s (boundsReport s (some (s.mem.read s.pc)) .stack s.sp.toNat)

/-- Everything a step can do: nothing, in a terminal state; an abort, with one of the reports of `Raises`; or the completion of
the instruction whose opcode byte stands at `pc`. -/
theorem step_outcomes (h : step s = .next t) :
    (s.run ≠ .running ∧ t = s) ∨
    (s.run = .running ∧ ∃ r, Raises s r ∧ t = s.abort r) ∨
    (s.run = .running ∧ s.pc ≤ 253 ∧ ∃ i, Completed s i t ∧ s.mem.read s.pc = opcodeOf i.mnemonic ∧
      i = instrOf i.mnemonic (s.mem.read (s.pc + 1)) (s.mem.read (s.pc + 2))) := by
  rcases step_cases h with ⟨hr, e⟩ | ⟨hr, r, hf, e⟩ | ⟨hr, w, _, hf, _, e⟩ | ⟨hr, w, i, hf, hd, he⟩
  · exact .inl ⟨hr, e⟩
  · obtain ⟨hp, rfl⟩ := fetch_error hf
    exact .inr (.inl ⟨hr, _, .fetch hp, e⟩)
  · obtain ⟨hp, rfl⟩ := fetch_ok hf
    exact .inr (.inl ⟨hr, _, .decode hp, e⟩)
  · obtain ⟨hp, rfl⟩ := fetch_ok hf
    obtain ⟨hop, hi⟩ := decode_ok hd
    simp only at hop hi
    rcases exec_cases he with ⟨a, ha, e⟩ | ⟨_, hs, e⟩ | ⟨_, hc⟩
    · refine .inr (.inl ⟨hr, _, .register hp a (by simpa using List.find?_some ha), ?_⟩)
      rw [e, registerAbort, hop]
    · refine .inr (.inl ⟨hr, _, .stack hp i hs, ?_⟩)
      rw [e, stackAbort, hop]
    · exact .inr (.inr ⟨hr, hp, i, hc, hop, hi⟩)

end Machine
end Sys2Proof
end

