-- ==== Sys2Proof/Tests/Slice0.lean ====
section
/-! SUPPORT. Tests on small states. Every expected value comes from the spec: the words from 30_encoding.md R72 and R74, the results
from 95_test_vectors.md (L1, L2). The witnesses at the end meet the hypotheses of the statements that have any. -/

namespace Sys2Proof.Tests

open Sys2Proof Sys2Proof.Machine

/-- A RUNNING state: code from address `p`, the first registers, `sp` and `fl`; the rest as at reset. -/
def at_ (p : Nat) (code : List Byte) (r0 r1 r2 r3 : Byte) (sp : Byte := 0xF3#8) (fl : Flags := .unset) : State :=
  { State.reset with
    regs := #v[r0, r1, r2, r3, 0#8, 0#8, 0#8, 0#8], pc := p, sp := sp, fl := fl, mem := Memory.store [] p code }

/-- One field of the state a step answers. -/
def after {α : Type} (o : StepOutcome) (field : State → α) : Option α :=
  match o with
  | .next t => some (field t)
  | .fault _ => none
  | .refused _ => none

/-- The instruction a decode gives. -/
def decoded (op a b : Byte) : Option Instr := (decode op a b).toOption

/-! ### Well-formedness: each check refuses an ill-formed term -/

theorem test_wellFormed_accepts : (Instr.add 7#8 0#8).wellFormed := by decide
theorem test_wellFormed_refuses_a : ¬ (Instr.prn 8#8).wellFormed := by decide
theorem test_wellFormed_refuses_a_of_two : ¬ (Instr.mul 8#8 0#8).wellFormed := by decide
theorem test_wellFormed_refuses_b : ¬ (Instr.cmp 0#8 255#8).wellFormed := by decide
theorem test_wellFormed_refuses_ldi_a : ¬ (Instr.ldi 9#8 5#8).wellFormed := by decide
theorem test_wellFormed_ignores_immediate : (Instr.ldi 0#8 255#8).wellFormed := by decide
theorem test_wellFormed_refuses_stack_and_branch :
    ¬ (Instr.push 8#8).wellFormed ∧ ¬ (Instr.pop 8#8).wellFormed ∧ ¬ (Instr.call 9#8).wellFormed ∧
    ¬ (Instr.jmp 8#8).wellFormed ∧ ¬ (Instr.jeq 9#8).wellFormed ∧ ¬ (Instr.jne 8#8).wellFormed := by decide

/-! ### Decoding: a word of each row of 30_encoding.md R74, bit by bit -/

theorem test_decode_hlt : decoded 0b00000001#8 0b11111111#8 0b10101010#8 = some .hlt := by decide
theorem test_decode_ldi : decoded 0b10000010#8 0b00000111#8 0b11111111#8 = some (.ldi 7#8 255#8) := by decide
theorem test_decode_prn : decoded 0b01000111#8 0b00000001#8 0b11111111#8 = some (.prn 1#8) := by decide
theorem test_decode_add : decoded 0b10100000#8 0b00000010#8 0b00000011#8 = some (.add 2#8 3#8) := by decide
theorem test_decode_mul : decoded 0b10100010#8 0b00000101#8 0b00000110#8 = some (.mul 5#8 6#8) := by decide
theorem test_decode_cmp : decoded 0b10100111#8 0b00000100#8 0b00000101#8 = some (.cmp 4#8 5#8) := by decide
theorem test_decode_push : decoded 0b01000101#8 0b00000010#8 0b00000000#8 = some (.push 2#8) := by decide
theorem test_decode_pop : decoded 0b01000110#8 0b00000011#8 0b00000000#8 = some (.pop 3#8) := by decide
theorem test_decode_call : decoded 0b01010000#8 0b00000001#8 0b01010101#8 = some (.call 1#8) := by decide
theorem test_decode_ret : decoded 0b00010001#8 0b00000001#8 0b01010101#8 = some .ret := by decide
theorem test_decode_jmp : decoded 0b01010100#8 0b00000011#8 0b11111111#8 = some (.jmp 3#8) := by decide
theorem test_decode_jeq : decoded 0b01010101#8 0b00000011#8 0b11111111#8 = some (.jeq 3#8) := by decide
theorem test_decode_jne : decoded 0b01010110#8 0b00001001#8 0b11111111#8 = some (.jne 9#8) := by decide
theorem test_decode_iret : decoded 0b00010011#8 0b11111111#8 0b11111111#8 = some .iret := by decide

/-- LS-8 bytes that are no instruction here (after R78): NOP, SUB, INT, and 0xFF. -/
theorem test_decode_refuses : decoded 0x00#8 0#8 0#8 = none ∧ decoded 0xA1#8 0#8 1#8 = none ∧
    decoded 0x52#8 0#8 0#8 = none ∧ decoded 0xFF#8 0#8 0#8 = none := by decide

/-- R78: 242 bytes are illegal. -/
theorem test_illegal_count :
    ((List.range 256).filter fun n => decoded (BitVec.ofNat 8 n) 0#8 0#8 == none).length = 242 := by decide +kernel

/-- R77: the two high bits of the opcode byte are the operand count, and bit 5 marks the ALU class. -/
theorem test_opcode_high_bits : Mnemonic.all.all (fun m =>
    (opcodeOf m).toNat / 64 == m.format.operandCount &&
    ((opcodeOf m).getLsbD 5 == (m == .add || m == .mul || m == .cmp))) = true := by decide

/-- R82: `PUSH R2` assembles to `45 02 00` and `POP R3` to `46 03 00`; the others take no pad. -/
theorem test_assemble : assemble (.push 2#8) = [0x45#8, 0x02#8, 0x00#8] ∧ assemble (.pop 3#8) = [0x46#8, 0x03#8, 0x00#8] ∧
    assemble (.call 1#8) = [0x50#8, 0x01#8] := by decide

/-- R80: the statements of the source's scenario. -/
theorem test_text : (Instr.ldi 0#8 8#8).text = "LDI R0,8" ∧ (Instr.mul 0#8 1#8).text = "MUL R0,R1" ∧
    (Instr.prn 0#8).text = "PRN R0" ∧ Instr.hlt.text = "HLT" := by decide

/-- The table's numbering of bits: the first byte is the lowest. -/
theorem test_table_word : decodeTableWord 24 0x0200A0 = some (.add 0#8 2#8) ∧ decodeTableWord 8 0xFFFF13 = some .iret := by decide

/-- The first instruction after reset, laid down as the load port would. -/
theorem test_first_word : after (step (State.reset.withFetchWord 24 0xFF0382)) (fun t => (t.regs[3], t.pc)) = some (0xFF#8, 3) := by
  decide

/-! ### The instructions (95_test_vectors.md) -/

theorem test_hlt : after (step (at_ 253 [0x01#8] 0#8 0#8 0#8 0#8)) (fun t => (t.run, t.pc)) = some (.halted, 253) := by decide
theorem test_ldi : after (step (at_ 0 [0x82#8, 0x00#8, 0xFF#8] 0#8 0#8 0#8 0#8)) (fun t => (t.regs[0], t.pc)) = some (255#8, 3) := by
  decide
theorem test_prn : after (step { at_ 0 [0x47#8, 0x01#8] 9#8 0#8 0#8 0#8 with out := [5#8] }) (fun t => (t.out, t.pc)) =
    some ([5#8, 0#8], 2) := by decide
theorem test_add_wraps : after (step (at_ 0 [0xA0#8, 0x00#8, 0x01#8] 250#8 10#8 0#8 0#8)) (fun t => (t.regs[0], t.regs[1], t.fl)) =
    some (4#8, 10#8, .unset) := by decide
theorem test_add_same : after (step (at_ 0 [0xA0#8, 0x00#8, 0x00#8] 200#8 0#8 0#8 0#8)) (fun t => (t.regs[0], t.pc)) =
    some (144#8, 3) := by decide
theorem test_mul_wraps : after (step (at_ 0 [0xA2#8, 0x00#8, 0x01#8] 200#8 2#8 0#8 0#8)) (fun t => (t.regs[0], t.pc)) =
    some (144#8, 3) := by decide
theorem test_mul_high : after (step (at_ 0 [0xA2#8, 0x00#8, 0x01#8] 255#8 255#8 0#8 0#8)) (fun t => t.regs[0]) = some 1#8 := by decide
theorem test_cmp_unsigned : after (step (at_ 0 [0xA7#8, 0x00#8, 0x01#8] 128#8 127#8 0#8 0#8)) (fun t => (t.fl, t.pc)) =
    some (.greaterThan, 3) := by decide
theorem test_cmp_less_and_equal :
    after (step (at_ 0 [0xA7#8, 0x00#8, 0x01#8] 3#8 5#8 0#8 0#8)) (·.fl) = some .lessThan ∧
    after (step (at_ 0 [0xA7#8, 0x00#8, 0x01#8] 0#8 0#8 0#8 0#8 0xF3#8 .greaterThan)) (·.fl) = some .equal := by decide
theorem test_push : after (step (at_ 0 [0x45#8, 0x02#8, 0x00#8] 0#8 0#8 42#8 0#8)) (fun t => (t.sp, t.mem.read 0xF2, t.pc)) =
    some (0xF2#8, 42#8, 3) := by decide
theorem test_push_full : after (step (at_ 5 [0x45#8, 0x02#8, 0x00#8] 0#8 0#8 9#8 0#8 0#8)) (fun t => (t.run, t.err, t.sp, t.pc)) =
    some (.aborted, some ⟨.outOfBoundsAccess, 5, some 0x45#8, some ⟨.stack, 0⟩⟩, 0#8, 5) := by decide
theorem test_pop : after (step { at_ 9 [0x46#8, 0x03#8, 0x00#8] 0#8 0#8 0#8 0#8 0#8 with
      mem := Memory.store [(0, 7#8)] 9 [0x46#8, 0x03#8, 0x00#8] }) (fun t => (t.regs[3], t.sp, t.pc)) =
    some (7#8, 1#8, 12) := by decide
theorem test_pop_empty : after (step (at_ 0 [0x46#8, 0x03#8, 0x00#8] 0#8 0#8 0#8 1#8)) (fun t => (t.err, t.regs[3])) =
    some (some ⟨.outOfBoundsAccess, 0, some 0x46#8, some ⟨.stack, 0xF3⟩⟩, 1#8) := by decide
theorem test_call : after (step (at_ 253 [0x50#8, 0x01#8] 0#8 0#8 0#8 0#8)) (fun t => (t.sp, t.mem.read 0xF2, t.pc)) =
    some (0xF2#8, 255#8, 0) := by decide
theorem test_call_register_first : after (step (at_ 0 [0x50#8, 0x09#8] 0#8 0#8 0#8 0#8 0#8)) (·.err) =
    some (some ⟨.outOfBoundsAccess, 0, some 0x50#8, some ⟨.reg, 9⟩⟩) := by decide
theorem test_ret : after (step { at_ 20 [0x11#8] 0#8 0#8 0#8 0#8 0xF2#8 with
      mem := Memory.store (Memory.store [] 20 [0x11#8]) 0xF2 [8#8] }) (fun t => (t.pc, t.sp)) = some (8, 0xF3#8) := by decide
theorem test_ret_at_top : after (step (at_ 254 [0x11#8] 0#8 0#8 0#8 0#8 0xF2#8)) (fun t => (t.err, t.sp)) =
    some (some ⟨.outOfBoundsAccess, 254, some 0x11#8, some ⟨.mem, 256⟩⟩, 0xF2#8) := by decide
theorem test_jmp : after (step (at_ 4 [0x54#8, 0x03#8] 0#8 0#8 0#8 255#8)) (·.pc) = some 255 := by decide
theorem test_jeq : after (step (at_ 0 [0x55#8, 0x03#8] 0#8 0#8 0#8 40#8 0xF3#8 .equal)) (fun t => (t.pc, t.fl)) = some (40, .equal) ∧
    after (step (at_ 0 [0x55#8, 0x03#8] 0#8 0#8 0#8 40#8 0xF3#8 .greaterThan)) (·.pc) = some 2 := by decide
theorem test_jeq_checks_register : after (step (at_ 0 [0x55#8, 0x09#8] 0#8 0#8 0#8 0#8)) (·.err) =
    some (some ⟨.outOfBoundsAccess, 0, some 0x55#8, some ⟨.reg, 9⟩⟩) := by decide
theorem test_jne : after (step (at_ 0 [0x56#8, 0x03#8] 0#8 0#8 0#8 12#8)) (·.pc) = some 12 ∧
    after (step (at_ 0 [0x56#8, 0x03#8] 0#8 0#8 0#8 12#8 0xF3#8 .equal)) (·.pc) = some 2 := by decide
theorem test_iret : after (step (at_ 20 [0x13#8] 0#8 0#8 0#8 0#8)) (fun t => (t.pc, t.sp, t.run)) = some (21, 0xF3#8, .running) := by
  decide

/-! ### Errors and ports -/

theorem test_unsupported : after (step (at_ 0 [0xA1#8, 0x00#8, 0x01#8] 0#8 0#8 0#8 0#8)) (fun t => (t.run, t.err, t.pc)) =
    some (.aborted, some ⟨.unsupportedOpcode, 0, some 0xA1#8, none⟩, 0) := by decide
theorem test_fetch_before_decode : after (step (at_ 254 [0xA1#8] 0#8 0#8 0#8 0#8)) (·.err) =
    some (some ⟨.outOfBoundsAccess, 254, some 0xA1#8, some ⟨.mem, 256⟩⟩) := by decide
theorem test_fetch_off_the_end : after (step (at_ 256 [] 0#8 0#8 0#8 0#8)) (·.err) =
    some (some ⟨.outOfBoundsAccess, 256, none, some ⟨.mem, 256⟩⟩) := by decide
theorem test_a_before_b : after (step (at_ 0 [0xA0#8, 0x0A#8, 0x09#8] 0#8 0#8 0#8 0#8)) (·.err) =
    some (some ⟨.outOfBoundsAccess, 0, some 0xA0#8, some ⟨.reg, 10⟩⟩) := by decide
theorem test_error_codes : ErrorKind.unsupportedOpcode.code = 1 ∧ ErrorKind.unsupportedALUOperation.code = 2 ∧
    ErrorKind.outOfBoundsAccess.code = 3 := by decide
theorem test_flags_view : [Flags.unset, .equal, .greaterThan, .lessThan].map Flags.byteView = [0#8, 1#8, 2#8, 4#8] := by decide
theorem test_load : after (hostMove (.load ⟨[0x01#8], 0#8, Vector.replicate 8 7#8, [(9, 9#8)]⟩) { State.reset with run := .halted })
    (fun t => (t.run, t.mem, t.regs[5])) = some (.running, [(0, 1#8), (9, 9#8)], 7#8) := by decide

/-! ### Witnesses: a concrete state and operands that meet the hypotheses of each statement, at the ends of their ranges -/

/-- The operands of the register clauses: 7 is the last valid index and 8 the first invalid one. -/
theorem witness_LdiWritesItsImmediate : (7#8 : Byte).toNat < 8 ∧ 8 ≤ (8#8 : Byte).toNat := by decide
theorem witness_PrnEmitsItsRegister : (7#8 : Byte).toNat < 8 ∧ 8 ≤ (255#8 : Byte).toNat := by decide
theorem witness_AddWritesTheSumMod256 :
    ((7#8 : Byte).toNat < 8 ∧ (0#8 : Byte).toNat < 8) ∧ 8 ≤ (8#8 : Byte).toNat ∧
    ((7#8 : Byte).toNat < 8 ∧ 8 ≤ (8#8 : Byte).toNat) := by decide
theorem witness_MulWritesTheProductMod256 :
    ((0#8 : Byte).toNat < 8 ∧ (7#8 : Byte).toNat < 8) ∧ 8 ≤ (8#8 : Byte).toNat ∧
    ((7#8 : Byte).toNat < 8 ∧ 8 ≤ (8#8 : Byte).toNat) := by decide
theorem witness_CmpSetsTheFlags :
    ((at_ 0 [] 0#8 0#8 0#8 0#8).regs[0].toNat = (at_ 0 [] 0#8 0#8 0#8 0#8).regs[1].toNat) ∧
    ((at_ 0 [] 254#8 255#8 0#8 0#8).regs[0].toNat < (at_ 0 [] 254#8 255#8 0#8 0#8).regs[1].toNat) ∧
    ((at_ 0 [] 1#8 0#8 0#8 0#8).regs[1].toNat < (at_ 0 [] 1#8 0#8 0#8 0#8).regs[0].toNat) ∧
    8 ≤ (8#8 : Byte).toNat ∧ ((7#8 : Byte).toNat < 8 ∧ 8 ≤ (8#8 : Byte).toNat) := by decide
theorem witness_PushStoresBelowSp :
    ((7#8 : Byte).toNat < 8 ∧ 1 ≤ (at_ 0 [] 0#8 0#8 0#8 0#8 1#8).sp.toNat) ∧ 8 ≤ (8#8 : Byte).toNat ∧
    ((7#8 : Byte).toNat < 8 ∧ (at_ 0 [] 0#8 0#8 0#8 0#8 0#8).sp.toNat = 0) := by decide
theorem witness_PopLoadsFromSp :
    ((7#8 : Byte).toNat < 8 ∧ (at_ 0 [] 0#8 0#8 0#8 0#8 0xF2#8).sp.toNat < 243) ∧ 8 ≤ (8#8 : Byte).toNat ∧
    ((7#8 : Byte).toNat < 8 ∧ 243 ≤ State.reset.sp.toNat) := by decide
theorem witness_CallPushesTheReturnAddress :
    ((7#8 : Byte).toNat < 8 ∧ 1 ≤ (at_ 253 [] 0#8 0#8 0#8 0#8 1#8).sp.toNat ∧ (at_ 253 [] 0#8 0#8 0#8 0#8 1#8).pc ≤ 253) ∧
    8 ≤ (8#8 : Byte).toNat ∧ ((7#8 : Byte).toNat < 8 ∧ (at_ 0 [] 0#8 0#8 0#8 0#8 0#8).sp.toNat = 0) := by decide
theorem witness_RetPopsThePc :
    (at_ 0 [] 0#8 0#8 0#8 0#8 0xF2#8).sp.toNat < 243 ∧ 243 ≤ State.reset.sp.toNat := by decide
theorem witness_JmpSetsThePc : (7#8 : Byte).toNat < 8 ∧ 8 ≤ (8#8 : Byte).toNat := by decide
theorem witness_JeqBranchesOnEqual : (7#8 : Byte).toNat < 8 ∧ 8 ≤ (8#8 : Byte).toNat := by decide
theorem witness_JneBranchesOnNotEqual : (7#8 : Byte).toNat < 8 ∧ 8 ≤ (8#8 : Byte).toNat := by decide

/-- IRET at 253, the last address an instruction can start at. -/
def atLast : State := at_ 253 [0x13#8] 0#8 0#8 0#8 0#8

theorem witness_StepRunsTheDecodedInstruction :
    atLast.run = .running ∧ atLast.pc ≤ 253 ∧
    decode (atLast.mem.read 253) (atLast.mem.read 254) (atLast.mem.read 255) = .ok .iret := ⟨rfl, by decide, rfl⟩
theorem witness_FetchPastMemoryAborts :
    ((at_ 254 [] 0#8 0#8 0#8 0#8).run = .running ∧ (at_ 254 [] 0#8 0#8 0#8 0#8).pc = 254) ∧
    ((at_ 255 [] 0#8 0#8 0#8 0#8).run = .running ∧ (at_ 255 [] 0#8 0#8 0#8 0#8).pc = 255) ∧
    ((at_ 256 [] 0#8 0#8 0#8 0#8).run = .running ∧ 256 ≤ (at_ 256 [] 0#8 0#8 0#8 0#8).pc) := by decide
theorem witness_UnlistedOpcodeAborts :
    State.reset.run = .running ∧ State.reset.pc ≤ 253 ∧ State.reset.mem.read State.reset.pc ∉ Claims.opcodes := by decide
theorem witness_StepRaisesTheFirstFailingCheck :
    State.reset.run = .running ∧ ((Claims.checks State.reset).find? (·.1)).isSome ∧
    atLast.run = .running ∧ (Claims.checks atLast).find? (·.1) = none := by decide
theorem witness_InvalidRegisterFieldAborts :
    (Instr.cmp 7#8 8#8).registerFields.find? (fun x => 8 ≤ x.toNat) = some 8#8 ∧
    State.reset.err = none ∧ after (exec (.cmp 7#8 8#8) State.reset) (·.err) =
      some (some ⟨.outOfBoundsAccess, 0, some 0xA7#8, some ⟨.reg, 8⟩⟩) := by decide
theorem witness_WellFormedInstructionsComplete :
    State.reset.run = .running ∧ (Instr.call 7#8).wellFormed ∧ 1 ≤ State.reset.sp.toNat := by decide
theorem witness_AbortChangesOnlyRunAndErr : State.reset.run = .running ∧
    after (step State.reset) (·.run) = some .aborted := by decide

/-- A CMP that changes `fl`, a POP that moves `sp`, a PUSH that writes memory, a PRN that emits, each as a step. -/
def cmpStep : State := at_ 0 [0xA7#8, 0x00#8, 0x01#8] 3#8 5#8 0#8 0#8
def pushStep : State := at_ 0 [0x45#8, 0x00#8] 9#8 0#8 0#8 0#8
def popStep : State := at_ 0 [0x46#8, 0x00#8] 9#8 0#8 0#8 0#8 0xF2#8
def prnStep : State := at_ 0 [0x47#8, 0x00#8] 9#8 0#8 0#8 0#8
def jeqStep : State := at_ 0 [0x55#8, 0x00#8] 9#8 0#8 0#8 0#8 0xF3#8 .lessThan
def hltStep : State := at_ 0 [0x01#8] 0#8 0#8 0#8 0#8

theorem witness_RunStateChanges :
    (hltStep.run = .running ∧ hltStep.err = none ∧ after (step hltStep) (·.run) = some .halted) ∧
    after (step State.reset) (fun t => t.err != none) = some true ∧
    after (step { hltStep with run := .halted }) (·.run) = some .halted ∧
    after (step { hltStep with run := .aborted }) (·.run) = some .aborted := by decide
theorem witness_TerminalStatesAreFinal : ({ State.reset with run := .halted } : State).run ≠ .running ∧
    after (hostMove (.load ⟨[], 0#8, State.reset.regs, []⟩) { State.reset with run := .halted })
      (fun t => t == { State.reset with run := .halted }) = some false := by decide
theorem witness_OnlyCmpWritesFlags : (Instr.add 0#8 0#8).mnemonic ≠ .cmp ∧
    after (exec (.add 0#8 0#8) cmpStep) (·.fl) = some .unset ∧ after (step cmpStep) (·.fl != cmpStep.fl) = some true := by decide
theorem witness_OnlyBranchesReadFlags :
    after (step jeqStep) (·.pc) = some 2 ∧ (Flags.greaterThan = .equal ↔ jeqStep.fl = .equal) ∧
    after (step cmpStep) (·.pc) = some 3 ∧ cmpStep.mem.read cmpStep.pc ≠ 0x55#8 := by decide
theorem witness_RegisterWritersAndReaders :
    after (exec (.add 0#8 1#8) cmpStep) (·.pc) = some 3 ∧ (∀ a ∈ Claims.registersWritten (.add 0#8 1#8), a.toNat ≠ 7) ∧
    (∀ a ∈ Claims.registersRead (.add 0#8 1#8), a.toNat ≠ 7) ∧
    (cmpStep.run = .running ∧ after (exec (.ldi 7#8 9#8) cmpStep) (·.regs[7]) = some 9#8 ∧
      (∀ a ∈ Claims.registersRead (.ldi 7#8 9#8), a.toNat ≠ 7) ∧
      ∃ a ∈ Claims.registersWritten (.ldi 7#8 9#8), a.toNat = 7) ∧
    (cmpStep.run = .running ∧ after (exec (.pop 0#8) cmpStep) (·.run) = some .aborted ∧
      (∀ a ∈ Claims.registersRead (.pop 0#8), a.toNat ≠ 0) ∧
      ∃ a ∈ Claims.registersWritten (.pop 0#8), a.toNat = 0) := by decide
theorem witness_OnlyStackInstructionsMoveSp :
    after (step pushStep) (·.sp != pushStep.sp) = some true ∧ after (step popStep) (·.sp != popStep.sp) = some true := by decide
theorem witness_OnlyPushAndCallWriteMemory : after (step pushStep) (fun t => t.mem.read 0xF2 != pushStep.mem.read 0xF2) = some true := by
  decide
theorem witness_OnlyPrnEmits : after (step prnStep) (·.out != prnStep.out) = some true := by decide
theorem witness_PcFollowsTheTable : popStep.run = .running ∧
    after (exec (.pop 7#8) popStep) (·.run) = some .running ∧ after (exec (.pop 8#8) popStep) (·.run) = some .aborted := by decide

/-- Reset is legal, so a step from it and a load into it start in a legal state. -/
theorem reset_inv : State.reset.Inv := ⟨by decide, by decide, by decide, by decide, fun _ h => by cases h⟩
theorem witness_StepKeepsTheInvariant : State.reset.Inv ∧ ∃ t, step State.reset = .next t := ⟨reset_inv, _, rfl⟩
theorem witness_HostMovesKeepTheInvariant : State.reset.Inv ∧ Memory.wf [(255, 1#8)] ∧
    ∃ t, hostMove (.load ⟨[1#8], 0#8, State.reset.regs, [(255, 1#8)]⟩) State.reset = .next t :=
  ⟨reset_inv, by decide, _, rfl⟩
theorem witness_LoadSetsEveryPieceOfState :
    (List.replicate 256 1#8 : List Byte).length ≤ 256 ∧ 256 < (List.replicate 257 1#8 : List Byte).length := by
  rw [List.length_replicate, List.length_replicate]; decide
theorem witness_StackPointerStartsAtF3 : (List.replicate 256 1#8 : List Byte).length ≤ 256 := by
  rw [List.length_replicate]
theorem witness_PushThenPopMovesTheValue : (7#8 : Byte).toNat < 8 ∧ (0#8 : Byte).toNat < 8 ∧
    1 ≤ State.reset.sp.toNat ∧ State.reset.sp.toNat ≤ 243 ∧ 1 ≤ (at_ 0 [] 0#8 0#8 0#8 0#8 1#8).sp.toNat := by decide
theorem witness_CallThenRetReturns : (7#8 : Byte).toNat < 8 ∧ 1 ≤ (at_ 253 [] 0#8 0#8 0#8 0#8 1#8).sp.toNat ∧
    (at_ 253 [] 0#8 0#8 0#8 0#8 1#8).sp.toNat ≤ 243 ∧ (at_ 253 [] 0#8 0#8 0#8 0#8 1#8).pc ≤ 253 := by decide
theorem witness_UnmatchedStackUseIsDefined : (7#8 : Byte).toNat < 8 ∧ (0#8 : Byte).toNat < 8 ∧ 1 ≤ State.reset.sp.toNat ∧
    State.reset.sp.toNat ≤ 243 ∧ State.reset.pc ≤ 253 := by decide
theorem witness_PushedByteIsFetched : (0#8 : Byte).toNat < 8 ∧ 1 ≤ pushStep.sp.toNat ∧ pushStep.sp.toNat ≤ 243 ∧
    after (exec (.push 0#8) pushStep) (·.sp) = some 0xF2#8 := by decide
theorem witness_CanonicalMemoriesAreEqual : Memory.wf [(0, 1#8), (255, 2#8)] ∧ Memory.wf [] := by decide
theorem witness_MemoryAccessIsOneCellInBounds : 255 < 256 ∧ 256 ≤ 256 := by decide
theorem witness_AluRejectsOtherSelects : State.reset.run = .running ∧ State.reset.err = none ∧
    after (step State.reset) (fun t => t.err.isSome) = some true := by decide
theorem witness_DecodeIsTheInverseOfEncodeUnderAnyMap : Config.opcodeMap.wellFormed := by decide
theorem witness_EncodedInstructionsDecode : 2 ≤ ([0#8, 255#8] : List Byte).length := by decide
theorem witness_DecoderAcceptsExactlyTheTable : 0x01#8 ∈ Claims.opcodes ∧ 0x00#8 ∉ Claims.opcodes ∧ 0xA8#8 ∉ Claims.opcodes := by decide
theorem witness_IgnoredBytesDoNotMatter :
    decoded 0x13#8 0#8 0#8 = some .iret ∧ Instr.iret.operandBytes.length = 0 ∧
    decoded 0x54#8 7#8 0#8 = some (.jmp 7#8) ∧ (Instr.jmp 7#8).operandBytes.length = 1 := by decide
theorem witness_AssembledCodeIsContiguous : jeqStep.run = .running ∧ jeqStep.fl ≠ .equal ∧
    after (exec (.jeq 0#8) jeqStep) (·.run) = some .running := by decide

end Sys2Proof.Tests
end

/-! ## Proofs about the scope chapter: checked memory access -/
section
namespace Sys2Proof
namespace Machine

/-- The write side of `memRead_outside`: whatever is staged on `t`, the report is of the state `s` the instruction
started in (00_scope.md R11, 20_memory.md R51). -/
theorem memWrite_outside (s t : State) (opcode : Option Byte) (v : Byte) {addr : Nat} (h : ¬ addr < Config.memSize) :
    memWrite s opcode addr v t = .error (boundsReport s opcode .mem addr) := if_neg h

/-- Settles O43: each access is one bounds check, and `Memory.read_write` says that a write changes one cell. -/
theorem memoryAccessIsOneCellInBounds : Obligations.MemoryAccessIsOneCellInBounds := by
  intro s opcode addr v
  refine ⟨fun inside => ?_, fun outside => ?_⟩
  · have h : addr < Config.memSize := inside
    exact ⟨memRead_inside s opcode h, s.setCell addr v, memWrite_inside s s opcode v h,
      fun x => Memory.read_write s.mem addr x v, rfl⟩
  · have h : ¬ addr < Config.memSize := Nat.not_lt.2 outside
    exact ⟨memRead_outside s opcode h, memWrite_outside s s opcode v h⟩

end Machine
end Sys2Proof
end

/-! ## Proofs about the state chapter: what an instruction that completes leaves alone -/
section
namespace Sys2Proof
namespace Machine

variable {s t : State} {i : Instr}

/-- No instruction that completes touches the report (60_exceptions.md R204). -/
theorem Completed.err_eq (h : Completed s i t) : t.err = s.err := by cases h <;> rfl

/-- HLT halts, and no other instruction that completes writes the run state (40_decoder_dispatch.md R108). -/
theorem Completed.run_eq (h : Completed s i t) : t.run = if i = .hlt then .halted else s.run := by cases h <;> rfl

/-- From RUNNING, an instruction that completes does not abort. -/
theorem Completed.run_ne_aborted (h : Completed s i t) (hr : s.run = .running) : t.run ≠ .aborted := by
  rw [h.run_eq, hr]; split <;> simp

theorem Completed.run_eq_halted_iff (h : Completed s i t) (hr : s.run = .running) : t.run = .halted ↔ i = .hlt := by
  rw [h.run_eq, hr]; split <;> simp [*]

/-- Only CMP writes the flags (10_state.md R32). -/
theorem Completed.fl_eq (h : Completed s i t) (hi : i.mnemonic ≠ .cmp) : t.fl = s.fl := by
  cases h with
  | cmp => exact absurd rfl hi
  | _ => rfl

/-- PUSH and CALL lower `sp` where it is not 0, POP and RET raise it where it is below `SP_INIT`, no other instruction
moves it (42_stack_call.md R140 to R142). -/
theorem Completed.sp_cases (h : Completed s i t) :
    t.sp = s.sp ∨
    ((i.mnemonic = .push ∨ i.mnemonic = .call) ∧ s.sp ≠ 0 ∧ t.sp = s.sp - 1) ∨
    ((i.mnemonic = .pop ∨ i.mnemonic = .ret) ∧ s.sp.toNat < Config.spInit.toNat ∧ t.sp = s.sp + 1) := by
  cases h with
  | push _ hs => exact .inr (.inl ⟨.inl rfl, hs, rfl⟩)
  | call _ hs => exact .inr (.inl ⟨.inr rfl, hs, rfl⟩)
  | pop _ hs => exact .inr (.inr ⟨.inl rfl, hs, rfl⟩)
  | ret hs => exact .inr (.inr ⟨.inr rfl, hs, rfl⟩)
  | _ => exact .inl rfl

/-- PUSH and CALL write the cell below `sp`, no other instruction writes memory (10_state.md R38). -/
theorem Completed.mem_cases (h : Completed s i t) :
    t.mem = s.mem ∨
    ((i.mnemonic = .push ∨ i.mnemonic = .call) ∧ s.sp ≠ 0 ∧ ∃ v, t.mem = s.mem.write (s.sp - 1).toNat v) := by
  cases h with
  | push _ hs => exact .inr ⟨.inl rfl, hs, _, rfl⟩
  | call _ hs => exact .inr ⟨.inr rfl, hs, _, rfl⟩
  | _ => exact .inl rfl

/-- The value of a register under a valid index is what the statements call it. -/
theorem registerValue_eq_reg (s : State) {a : Byte} (ha : a.toNat < Config.nreg) :
    Claims.registerValue s a = s.reg ⟨a.toNat, ha⟩ := by
  simp [Claims.registerValue, State.reg, List.getD_eq_getElem?_getD, ha]

/-- PRN emits the value of its register, no other instruction emits (10_state.md R43). -/
theorem Completed.out_cases (h : Completed s i t) :
    t.out = s.out ∨ ∃ a, i = .prn a ∧ t.out = s.out ++ [Claims.registerValue s a] := by
  cases h with
  | prn ha => exact .inr ⟨_, rfl, by simp [registerValue_eq_reg s ha]⟩
  | _ => exact .inl rfl

/-- The "PC effect" column of 30_encoding.md R74. -/
theorem Completed.pc_eq (h : Completed s i t) : t.pc = Claims.pcAfter i s := by
  cases h with
  | call ha => simp [Claims.pcAfter, registerValue_eq_reg s ha]
  | jmp ha => simp [Claims.pcAfter, registerValue_eq_reg s ha]
  | jeq ha => simp [Claims.pcAfter, registerValue_eq_reg s ha]
  | jne ha => simp [Claims.pcAfter, registerValue_eq_reg s ha]
  | _ => rfl

/-- An instruction goes on at most 3 bytes further, or at the value of a byte. -/
theorem pcAfter_le (i : Instr) (s : State) : Claims.pcAfter i s ≤ max (s.pc + 3) 255 := by
  have byte : ∀ x : Byte, x.toNat ≤ max (s.pc + 3) 255 := fun x => le_max_of_le_right (Nat.le_of_lt_succ x.isLt)
  cases i with
  | call a => exact byte _
  | jmp a => exact byte _
  | ret => exact byte _
  | jeq a => simp only [Claims.pcAfter]; split; exacts [byte _, by omega]
  | jne a => simp only [Claims.pcAfter]; split; exacts [by omega, byte _]
  | _ => simp only [Claims.pcAfter]; omega

/-- Each instruction writes only the registers 10_state.md R21 lists for it. -/
theorem Completed.regs_getElem_of_not_written (h : Completed s i t) (k : Fin 8)
    (hk : ∀ a ∈ Claims.registersWritten i, a.toNat ≠ k) : t.regs[k] = s.regs[k] := by
  cases h with
  | @ldi a _ ha => exact Vector.getElem_set_ne ha k.isLt (hk a (by simp [Claims.registersWritten]))
  | @add a _ ha => exact Vector.getElem_set_ne ha k.isLt (hk a (by simp [Claims.registersWritten]))
  | @mul a _ ha => exact Vector.getElem_set_ne ha k.isLt (hk a (by simp [Claims.registersWritten]))
  | @pop a ha => exact Vector.getElem_set_ne ha k.isLt (hk a (by simp [Claims.registersWritten]))
  | _ => rfl

/-! ### The reports a step can raise -/

/-- Every report names the failing address (10_state.md R36). -/
theorem Raises.pc_eq {r : ErrorReport} (h : Raises s r) : r.pc = s.pc := by cases h <;> rfl

/-- Every report names the byte at the failing address, where there is one (40_decoder_dispatch.md R101). -/
theorem Raises.opcode_eq {r : ErrorReport} (h : Raises s r) :
    r.opcode = if s.pc < Config.memSize then some (s.mem.read s.pc) else none := by
  have inside : s.pc ≤ 253 → s.pc < Config.memSize := fun hp => Nat.lt_of_le_of_lt hp (by decide)
  cases h with
  | fetch => rfl
  | decode hp => exact (if_pos (inside hp)).symm
  | register hp => exact (if_pos (inside hp)).symm
  | stack hp => exact (if_pos (inside hp)).symm

/-- A stack bound fails only at an end of the stack. -/
theorem StackFails.sp_at_end (h : StackFails s i) (hsp : s.sp.toNat ≤ Config.spInit.toNat) :
    s.sp.toNat = 0 ∨ s.sp.toNat = Config.spInit.toNat := by
  cases h with
  | push hs => exact .inl (by simp [hs])
  | call hs => exact .inl (by simp [hs])
  | pop hs => exact .inr (Nat.le_antisymm hsp (Nat.not_lt.1 hs))
  | ret hs => exact .inr (Nat.le_antisymm hsp (Nat.not_lt.1 hs))

/-- The detail of a report names a cause of 60_exceptions.md R203. -/
theorem Raises.hasCause {r : ErrorReport} (h : Raises s r) (hsp : s.sp.toNat ≤ Config.spInit.toNat) {d : Detail}
    (hd : r.detail = some d) : d.hasCause s := by
  cases h with
  | fetch hp => cases hd; exact ⟨Nat.lt_of_not_le hp, rfl⟩
  | decode => cases hd
  | register _ a ha => cases hd; exact ⟨ha, Nat.le_of_lt_succ a.isLt⟩
  | stack _ i hs => cases hd; exact ⟨rfl, hs.sp_at_end hsp⟩

/-- A report raised in a state with a legal `sp` fits that state. -/
theorem Raises.fits {r : ErrorReport} (h : Raises s r) (hsp : s.sp.toNat ≤ Config.spInit.toNat) : r.Fits s where
  pc := h.pc_eq
  opcode := h.opcode_eq
  kind := by cases h <;> simp [boundsReport, report]
  detail := by cases h <;> simp [boundsReport, report]
  cause := fun _ => h.hasCause hsp

/-! ### The invariant -/

/-- The invariant of a RUNNING state says that nothing is reported. -/
theorem State.Inv.err_of_running (h : s.Inv) (hr : s.run = .running) : s.err = none := by
  by_contra he
  simpa [hr] using h.err.2 he

/-- Aborting with a report that fits keeps a legal state legal (60_exceptions.md R204). -/
theorem State.Inv.abort {r : ErrorReport} (h : s.Inv) (hr : r.Fits s) : (s.abort r).Inv where
  mem := h.mem
  pc := h.pc
  sp := h.sp
  err := by simp
  report := fun q hq => by
    obtain rfl : r = q := by simpa using hq
    exact ⟨hr.pc, hr.opcode, hr.kind, hr.detail, hr.cause⟩

theorem Completed.mem_wf (h : Completed s i t) (hm : s.mem.wf) : t.mem.wf := by
  rcases h.mem_cases with e | ⟨_, _, v, e⟩
  · rwa [e]
  · rw [e]; exact Memory.write_wf s.mem _ v hm (s.sp - 1).isLt

theorem Completed.sp_le (h : Completed s i t) (hsp : s.sp.toNat ≤ Config.spInit.toNat) :
    t.sp.toNat ≤ Config.spInit.toNat := by
  rcases h.sp_cases with e | ⟨_, hs, e⟩ | ⟨_, hs, e⟩
  · rwa [e]
  · rw [e, sp_sub_one_toNat s hs]; omega
  · rwa [e, sp_add_one_toNat s hs]

/-- A fetched instruction that completes keeps a legal RUNNING state legal: it reports nothing. -/
theorem State.Inv.of_completed (hinv : s.Inv) (hr : s.run = .running) (hp : s.pc ≤ 253) (h : Completed s i t) : t.Inv := by
  have noErr : t.err = none := h.err_eq.trans (hinv.err_of_running hr)
  exact {
    mem := h.mem_wf hinv.mem
    pc := by
      have := pcAfter_le i s
      rw [h.pc_eq, Config.memSize_eq]; omega
    sp := h.sp_le hinv.sp
    err := by simp [noErr, h.run_ne_aborted hr]
    report := fun r hreport => by simp [noErr] at hreport }

/-- Settles O32, by the three things a step can do: nothing, an abort, or the completion of an instruction. -/
theorem stepKeepsTheInvariant : Obligations.StepKeepsTheInvariant := by
  intro s t hinv h
  rcases step_outcomes h with ⟨_, rfl⟩ | ⟨_, r, hraises, rfl⟩ | ⟨hr, hp, i, hc, _⟩
  · exact hinv
  · exact hinv.abort (hraises.fits hinv.sp)
  · exact hinv.of_completed hr hp hc

end Machine
end Sys2Proof
end

/-! ## Proofs about the state chapter: what a step that aborts or halts leaves, and who writes which piece of state -/
section
namespace Sys2Proof

/-! ### The opcode bytes of 30_encoding.md R74 that the statements name -/

@[simp] theorem opcodeOf_hlt : opcodeOf .hlt = 0x01#8 := by decide
@[simp] theorem opcodeOf_prn : opcodeOf .prn = 0x47#8 := by decide
@[simp] theorem opcodeOf_cmp : opcodeOf .cmp = 0xA7#8 := by decide
@[simp] theorem opcodeOf_push : opcodeOf .push = 0x45#8 := by decide
@[simp] theorem opcodeOf_pop : opcodeOf .pop = 0x46#8 := by decide
@[simp] theorem opcodeOf_call : opcodeOf .call = 0x50#8 := by decide
@[simp] theorem opcodeOf_ret : opcodeOf .ret = 0x11#8 := by decide
@[simp] theorem opcodeOf_jeq : opcodeOf .jeq = 0x55#8 := by decide
@[simp] theorem opcodeOf_jne : opcodeOf .jne = 0x56#8 := by decide

/-- No two instruction names share an opcode byte. -/
theorem opcodeOf_injective : Function.Injective opcodeOf := fun m n h => by
  have row := opcodeMap_row m
  rw [h, opcodeMap_row n] at row
  exact (Option.some.inj row).symm

namespace Machine

variable {s t : State} {i : Instr}

/-! ### The branches of a step, as equations -/

/-- From HALTED or ABORTED a step changes nothing (40_decoder_dispatch.md R107). -/
theorem step_of_not_running (hr : s.run ≠ .running) : step s = .next s := by
  cases h : s.run with
  | running => exact absurd h hr
  | halted => simp [step, h]
  | aborted => simp [step, h]

theorem step_of_fetch_error {r : ErrorReport} (hr : s.run = .running) (hf : fetch s = .error r) :
    step s = .next (s.abort r) := by simp [step, hr, hf]

theorem step_of_decode_error {w : Window} {e : DecodeError} (hr : s.run = .running) (hf : fetch s = .ok w)
    (hd : decode w.op w.a w.b = .error e) : step s = .next (s.abort (report s .unsupportedOpcode (some w.op) none)) := by
  simp [step, hr, hf, hd]

theorem step_of_decode_ok {w : Window} (hr : s.run = .running) (hf : fetch s = .ok w)
    (hd : decode w.op w.a w.b = .ok i) : step s = exec i s := by simp [step, hr, hf, hd]

/-- A HLT whose fetch stays in memory halts (40_decoder_dispatch.md R108). -/
theorem step_of_hlt_byte (hr : s.run = .running) (hp : s.pc ≤ 253) (hb : s.mem.read s.pc = 0x01#8) :
    step s = .next s.halt :=
  step_of_decode_ok (i := .hlt) hr (fetch_inside s hp) (by rw [hb]; rfl)

/-! ### Aborting and halting -/

/-- Settles O20: `exec_of_register_invalid` gives the abort, and `exec_cases` says that no other abort is of a register. -/
theorem invalidRegisterFieldAborts : Obligations.InvalidRegisterFieldAborts := by
  refine ⟨fun i s a ha => exec_of_register_invalid ha, fun i s t r index hnone h herr hdetail => ?_⟩
  rcases exec_cases h with ⟨a, ha, rfl⟩ | ⟨_, _, rfl⟩ | ⟨_, hc⟩
  · cases herr; cases hdetail
    exact ⟨a, List.mem_of_find?_eq_some ha, by simpa using List.find?_some ha, rfl⟩
  · cases herr; cases hdetail
  · rw [hc.err_eq, hnone] at herr; cases herr

/-- Settles O22: a completed instruction has not aborted, and every other step from RUNNING is the abort of a report of
`Raises`. -/
theorem abortChangesOnlyRunAndErr : Obligations.AbortChangesOnlyRunAndErr := by
  intro s t hr h ht
  rcases step_outcomes h with ⟨hn, _⟩ | ⟨_, r, hraises, rfl⟩ | ⟨_, _, i, hc, _⟩
  · exact absurd hr hn
  · exact ⟨r, rfl, hraises.pc_eq, hraises.opcode_eq⟩
  · exact absurd ht (hc.run_ne_aborted hr)

/-- A step from RUNNING halts exactly at a HLT whose fetch stays in memory. -/
theorem step_halts_iff (h : step s = .next t) (hr : s.run = .running) :
    t.run = .halted ↔ s.pc ≤ 253 ∧ s.mem.read s.pc = 0x01#8 := by
  refine ⟨fun ht => ?_, fun ⟨hp, hb⟩ => ?_⟩
  · rcases step_outcomes h with ⟨hn, _⟩ | ⟨_, r, _, rfl⟩ | ⟨_, hp, i, hc, hop, _⟩
    · exact absurd hr hn
    · cases ht
    · obtain rfl := (hc.run_eq_halted_iff hr).1 ht
      exact ⟨hp, hop.trans opcodeOf_hlt⟩
  · rw [step_of_hlt_byte hr hp hb] at h
    cases h; rfl

/-- A step from RUNNING with no report aborts exactly when it reports. -/
theorem step_aborts_iff (h : step s = .next t) (hr : s.run = .running) (hnone : s.err = none) :
    t.run = .aborted ↔ t.err ≠ none := by
  rcases step_outcomes h with ⟨hn, _⟩ | ⟨_, r, _, rfl⟩ | ⟨_, _, i, hc, _⟩
  · exact absurd hr hn
  · simp
  · simp [hc.run_ne_aborted hr, hc.err_eq, hnone]

/-- Settles O23. -/
theorem runStateChanges : Obligations.RunStateChanges := by
  intro s t h
  have final (hn : s.run ≠ .running) : t = s := by
    rw [step_of_not_running hn] at h
    cases h; rfl
  exact ⟨step_halts_iff h, step_aborts_iff h, fun hr => final (by simp [hr]), fun hr => final (by simp [hr])⟩

/-! ### Who writes what -/

/-- A step that does not complete an instruction leaves each piece of state but `run` and `err` alone, so one that changes such
a piece is the completion of the instruction at `pc`. -/
theorem completed_of_step_changes {α : Type} (field : State → α) (hfield : ∀ r, field (s.abort r) = field s)
    (h : step s = .next t) (hne : field t ≠ field s) :
    ∃ i, Completed s i t ∧ s.mem.read s.pc = opcodeOf i.mnemonic ∧
      i = instrOf i.mnemonic (s.mem.read (s.pc + 1)) (s.mem.read (s.pc + 2)) := by
  rcases step_outcomes h with ⟨_, rfl⟩ | ⟨_, r, _, rfl⟩ | ⟨_, _, completed⟩
  · exact absurd rfl hne
  · exact absurd (hfield r) hne
  · exact completed

/-- Settles O25: an abort keeps `fl`, and so does every completion but CMP's. -/
theorem onlyCmpWritesFlags : Obligations.OnlyCmpWritesFlags := by
  refine ⟨fun i s t h hi => ?_, fun s t h hne => ?_⟩
  · rcases exec_cases h with ⟨a, _, rfl⟩ | ⟨_, _, rfl⟩ | ⟨_, hc⟩
    · rfl
    · rfl
    · exact hc.fl_eq hi
  · obtain ⟨i, hc, hop, _⟩ := completed_of_step_changes State.fl (fun _ => rfl) h hne
    have hi : i.mnemonic = .cmp := by
      by_contra hi
      exact hne (hc.fl_eq hi)
    rw [hop, hi, opcodeOf_cmp]

/-- The opcode byte at `pc` of a PUSH or a CALL. -/
theorem push_or_call_byte (hop : s.mem.read s.pc = opcodeOf i.mnemonic) (hi : i.mnemonic = .push ∨ i.mnemonic = .call) :
    s.mem.read s.pc = 0x45#8 ∨ s.mem.read s.pc = 0x50#8 := by
  rcases hi with hi | hi <;> simp [hop, hi]

/-- A stack pointer that is not 0 has room for a push (42_stack_call.md R141). -/
theorem State.one_le_sp (s : State) (hs : s.sp ≠ 0) : 1 ≤ s.sp.toNat :=
  Nat.one_le_iff_ne_zero.2 fun h => hs (BitVec.eq_of_toNat_eq h)

/-- Settles O28, by the cases of `Completed.sp_cases`; the stack bounds exclude a wrap. -/
theorem onlyStackInstructionsMoveSp : Obligations.OnlyStackInstructionsMoveSp := by
  intro s t h hne
  obtain ⟨i, hc, hop, _⟩ := completed_of_step_changes State.sp (fun _ => rfl) h hne
  rcases hc.sp_cases with e | ⟨hi, hs, e⟩ | ⟨hi, hs, e⟩
  · exact absurd e hne
  · refine .inl ⟨push_or_call_byte hop hi, ?_⟩
    rw [e, sp_sub_one_toNat s hs, Nat.sub_add_cancel (s.one_le_sp hs)]
  · refine .inr ⟨?_, by rw [e, sp_add_one_toNat s hs]⟩
    rcases hi with hi | hi <;> simp [hop, hi]

/-- Settles O29, by the cases of `Completed.mem_cases` and the read after a write. -/
theorem onlyPushAndCallWriteMemory : Obligations.OnlyPushAndCallWriteMemory := by
  intro s t x h hne
  obtain ⟨i, hc, hop, _⟩ := completed_of_step_changes (·.mem.read x) (fun _ => rfl) h hne
  rcases hc.mem_cases with e | ⟨hi, hs, v, e⟩
  · exact absurd (by rw [e]) hne
  · have hx : x = (s.sp - 1).toNat := by
      by_contra hx
      exact hne (by rw [e, Memory.read_write, if_neg hx])
    exact ⟨push_or_call_byte hop hi, s.one_le_sp hs, hx.trans (sp_sub_one_toNat s hs)⟩

/-- Settles O30, by the cases of `Completed.out_cases`. -/
theorem onlyPrnEmits : Obligations.OnlyPrnEmits := by
  intro s t h hne
  obtain ⟨i, hc, hop, hi⟩ := completed_of_step_changes State.out (fun _ => rfl) h hne
  rcases hc.out_cases with e | ⟨a, rfl, e⟩
  · exact absurd e hne
  · have ha : a = s.mem.read (s.pc + 1) := Instr.prn.inj hi
    exact ⟨hop.trans opcodeOf_prn, ha ▸ e⟩

/-- Settles O31: an abort keeps the PC, and a completion follows the table. -/
theorem pcFollowsTheTable : Obligations.PcFollowsTheTable := by
  intro i s t hr h
  rcases exec_cases h with ⟨a, _, rfl⟩ | ⟨_, _, rfl⟩ | ⟨_, hc⟩
  · rfl
  · rfl
  · rw [if_neg (hc.run_ne_aborted hr), hc.pc_eq]

end Machine
end Sys2Proof
end

/-! ## Proofs about the state chapter: two runs that differ in the flags or in one register -/
section
namespace Sys2Proof
namespace Machine

variable {s t : State} {i : Instr}

/-- Whether a stack bound fails depends on `sp` alone. -/
theorem StackFails.of_sp_eq {s' : State} (h : StackFails s i) (hsp : s'.sp = s.sp) : StackFails s' i := by
  cases h with
  | push hs => exact .push (hsp.trans hs)
  | call hs => exact .call (hsp.trans hs)
  | pop hs => exact .pop (by rwa [hsp])
  | ret hs => exact .ret (by rwa [hsp])

/-! ### Another `fl` -/

/-- Completion under another `fl`: CMP writes the same outcome, every other instruction keeps the other `fl`, and a branch sees
only whether it is EQUAL (10_state.md R33). -/
theorem Completed.setFl (h : Completed s i t) (f : Flags)
    (hbranch : i.mnemonic = .jeq ∨ i.mnemonic = .jne → (f = .equal ↔ s.fl = .equal)) :
    Completed (s.setFl f) i (t.setFl (if i.mnemonic = .cmp then t.fl else f)) := by
  cases h with
  | hlt => exact .hlt
  | ldi ha => exact .ldi ha
  | prn ha => exact .prn ha
  | add ha hb => exact .add ha hb
  | mul ha hb => exact .mul ha hb
  | cmp ha hb => exact .cmp ha hb
  | push ha hs => exact .push ha hs
  | pop ha hs => exact .pop ha hs
  | call ha hs => exact .call ha hs
  | ret hs => exact .ret hs
  | jmp ha => exact .jmp ha
  | jeq ha => simp only [← hbranch (.inl rfl)]; exact .jeq ha
  | jne ha => simp only [← hbranch (.inr rfl)]; exact .jne ha
  | iret => exact .iret

/-- An instruction under another `fl`: only a CMP that completes leaves an `fl` that does not depend on the old one. -/
theorem exec_setFl (h : exec i s = .next t) (hr : s.run = .running) (f : Flags)
    (hbranch : i.mnemonic = .jeq ∨ i.mnemonic = .jne → (f = .equal ↔ s.fl = .equal)) :
    exec i (s.setFl f) = .next (t.setFl (if i.mnemonic = .cmp ∧ t.run = .running then t.fl else f)) := by
  rcases exec_cases h with ⟨a, ha, rfl⟩ | ⟨hw, hs, rfl⟩ | ⟨_, hc⟩
  · rw [if_neg (fun hcmp => nomatch hcmp.2)]
    exact exec_of_register_invalid ha
  · rw [if_neg (fun hcmp => nomatch hcmp.2)]
    exact exec_of_stack_fails hw (hs.of_sp_eq rfl)
  · have completes (hi : i.mnemonic = .cmp) : t.run = .running := by
      rw [hc.run_eq, if_neg (by rintro rfl; cases hi), hr]
    rw [exec_of_completed (hc.setFl f hbranch)]
    by_cases hi : i.mnemonic = .cmp
    · rw [if_pos hi, if_pos ⟨hi, completes hi⟩]
    · rw [if_neg hi, if_neg (fun hcmp => hi hcmp.1)]

/-- Settles O26: fetch and decode do not read `fl`, and `exec_setFl` says what the instruction does. -/
theorem onlyBranchesReadFlags : Obligations.OnlyBranchesReadFlags := by
  intro s t f h hbyte
  change step (s.setFl f) = .next (t.setFl _)
  rcases step_cases h with ⟨hn, rfl⟩ | ⟨hr, r, hf, rfl⟩ | ⟨hr, w, e, hf, hd, rfl⟩ | ⟨hr, w, i, hf, hd, he⟩
  · rw [if_neg (fun hcmp => hn hcmp.2.1)]
    exact step_of_not_running hn
  · rw [if_neg (fun hcmp => nomatch hcmp.2.2)]
    exact step_of_fetch_error (s := s.setFl f) hr hf
  · rw [if_neg (fun hcmp => nomatch hcmp.2.2)]
    exact step_of_decode_error (s := s.setFl f) hr hf hd
  · obtain ⟨_, rfl⟩ := fetch_ok hf
    have hop : s.mem.read s.pc = opcodeOf i.mnemonic := (decode_ok hd).1
    have hcmp : s.mem.read s.pc = 0xA7#8 ↔ i.mnemonic = .cmp := by
      rw [hop, ← opcodeOf_cmp, opcodeOf_injective.eq_iff]
    have hbranch : i.mnemonic = .jeq ∨ i.mnemonic = .jne → (f = .equal ↔ s.fl = .equal) := fun hi =>
      hbyte (hi.imp (fun e => by rw [hop, e, opcodeOf_jeq]) (fun e => by rw [hop, e, opcodeOf_jne]))
    rw [step_of_decode_ok (s := s.setFl f) hr hf hd, exec_setFl he hr f hbranch]
    simp [hcmp, hr]

/-! ### Another value in one register -/

theorem State.setReg_setReg_self (s : State) (k : Fin Config.nreg) (v w : Byte) :
    (s.setReg k v).setReg k w = s.setReg k w := by
  simp [State.setReg]

theorem State.setReg_comm (s : State) {j k : Fin Config.nreg} (h : j ≠ k) (v w : Byte) :
    (s.setReg j v).setReg k w = (s.setReg k w).setReg j v := by
  have hne : (j : Nat) ≠ k := fun e => h (Fin.ext e)
  simp [State.setReg, Vector.set_comm _ _ hne]

theorem State.reg_setReg_of_ne (s : State) {j k : Fin Config.nreg} (h : j ≠ k) (v : Byte) :
    (s.setReg k v).reg j = s.reg j := by rw [State.reg_setReg, if_neg h]

theorem State.setReg_reg_self (s : State) (k : Fin Config.nreg) : s.setReg k (s.reg k) = s := by
  simp [State.setReg, State.reg]

theorem State.setReg_setPc (s : State) (k : Fin Config.nreg) (v : Byte) (x : Nat) :
    (s.setPc x).setReg k v = (s.setReg k v).setPc x := rfl

/-- A register the instruction neither reads nor writes keeps the other value, and nothing else depends on it. -/
theorem Completed.setReg_of_unused (h : Completed s i t) (k : Fin Config.nreg) (v : Byte)
    (hread : ∀ a ∈ Claims.registersRead i, a.toNat ≠ k) (hwritten : ∀ a ∈ Claims.registersWritten i, a.toNat ≠ k) :
    Completed (s.setReg k v) i (t.setReg k v) := by
  have unread {a : Byte} (ha : a.toNat < Config.nreg)
      (hmem : a ∈ Claims.registersRead i := by simp [Claims.registersRead]) :
      s.reg ⟨a.toNat, ha⟩ = (s.setReg k v).reg ⟨a.toNat, ha⟩ :=
    (s.reg_setReg_of_ne (fun e => hread a hmem (congrArg Fin.val e)) v).symm
  have written {a : Byte} (ha : a.toNat < Config.nreg)
      (hmem : a ∈ Claims.registersWritten i := by simp [Claims.registersWritten]) :
      (⟨a.toNat, ha⟩ : Fin Config.nreg) ≠ k := fun e => hwritten a hmem (congrArg Fin.val e)
  cases h with
  | hlt => exact .hlt
  | ldi ha =>
    rw [State.setReg_setPc, State.setReg_comm _ (written ha)]
    exact .ldi ha
  | prn ha => rw [unread ha]; exact .prn ha
  | add ha hb =>
    rw [State.setReg_setPc, State.setReg_comm _ (written ha), unread ha, unread hb]
    exact .add ha hb
  | mul ha hb =>
    rw [State.setReg_setPc, State.setReg_comm _ (written ha), unread ha, unread hb]
    exact .mul ha hb
  | cmp ha hb => rw [unread ha, unread hb]; exact .cmp ha hb
  | push ha hs => rw [unread ha]; exact .push ha hs
  | pop ha hs =>
    rw [State.setReg_setPc, State.setReg_comm _ (written ha)]
    exact .pop ha hs
  | call ha hs => rw [unread ha]; exact .call ha hs
  | ret hs => exact .ret hs
  | jmp ha => rw [unread ha]; exact .jmp ha
  | jeq ha => rw [unread ha]; exact .jeq ha
  | jne ha => rw [unread ha]; exact .jne ha
  | iret => exact .iret

/-- A register that the instruction overwrites without reading it (LDI's and POP's) does not matter at all. -/
theorem Completed.setReg_of_overwritten (h : Completed s i t) (k : Fin Config.nreg) (v : Byte)
    (hread : ∀ a ∈ Claims.registersRead i, a.toNat ≠ k) (hwritten : ∃ a ∈ Claims.registersWritten i, a.toNat = k) :
    Completed (s.setReg k v) i t := by
  obtain ⟨a, ha, hk⟩ := hwritten
  cases h with
  | @ldi _ imm hv =>
    obtain rfl := List.mem_singleton.1 ha
    obtain rfl : ⟨a.toNat, hv⟩ = k := Fin.ext hk
    rw [← s.setReg_setReg_self _ v imm]
    exact .ldi hv
  | pop hv hs =>
    obtain rfl := List.mem_singleton.1 ha
    obtain rfl : ⟨a.toNat, hv⟩ = k := Fin.ext hk
    rw [← (s.setSp _).setReg_setReg_self _ v]
    exact .pop hv hs
  | add => exact absurd hk (hread a (List.mem_cons.2 (.inl (List.mem_singleton.1 ha))))
  | mul => exact absurd hk (hread a (List.mem_cons.2 (.inl (List.mem_singleton.1 ha))))
  | _ => cases ha

/-- An instruction under another value of a register it does not read: the rest of the next state is the same, and the register
keeps the other value unless a completed instruction overwrites it. -/
theorem exec_setReg (h : exec i s = .next t) (k : Fin Config.nreg) (v : Byte)
    (hread : ∀ a ∈ Claims.registersRead i, a.toNat ≠ k) :
    ∃ w, exec i (s.setReg k v) = .next (t.setReg k w) ∧
      ((∀ a ∈ Claims.registersWritten i, a.toNat ≠ k) → w = v) ∧
      ((∃ a ∈ Claims.registersWritten i, a.toNat = k) → s.run = .running →
        w = if t.run = .aborted then v else t.reg k) := by
  rcases exec_cases h with ⟨a, ha, rfl⟩ | ⟨hw, hs, rfl⟩ | ⟨_, hc⟩
  · exact ⟨v, exec_of_register_invalid ha, fun _ => rfl, fun _ _ => rfl⟩
  · exact ⟨v, exec_of_stack_fails hw (hs.of_sp_eq rfl), fun _ => rfl, fun _ _ => rfl⟩
  · by_cases hwritten : ∃ a ∈ Claims.registersWritten i, a.toNat = k
    · refine ⟨t.reg k, ?_, fun hunwritten => ?_, fun _ hr => (if_neg (hc.run_ne_aborted hr)).symm⟩
      · rw [State.setReg_reg_self]
        exact exec_of_completed (hc.setReg_of_overwritten k v hread hwritten)
      · obtain ⟨a, ha, hk⟩ := hwritten
        exact absurd hk (hunwritten a ha)
    · have hunwritten : ∀ a ∈ Claims.registersWritten i, a.toNat ≠ k := fun a ha hk => hwritten ⟨a, ha, hk⟩
      exact ⟨v, exec_of_completed (hc.setReg_of_unused k v hread hunwritten), fun _ => rfl,
        fun hw => absurd hw hwritten⟩

/-- Settles O27: the frame of an instruction's registers, and `exec_setReg` for the registers it does not read. -/
theorem registerWritersAndReaders : Obligations.RegisterWritersAndReaders := by
  refine ⟨fun i s t k h hk => ?_, fun i s t k v h hread => ?_⟩
  · rcases exec_cases h with ⟨a, _, rfl⟩ | ⟨_, _, rfl⟩ | ⟨_, hc⟩
    · rfl
    · rfl
    · exact hc.regs_getElem_of_not_written k hk
  · obtain ⟨w, hexec, hkept, hoverwritten⟩ := exec_setReg h k v hread
    have hreg (j : Fin 8) : (t.regs.set k w)[j] = if j = k then w else t.regs[j] := t.reg_setReg k j w
    refine ⟨t.regs.set k w, hexec, fun j hj => ?_, fun hw => ?_, fun hw hr => ?_⟩
    · rw [hreg, if_neg hj]
    · rw [hreg, if_pos rfl, hkept hw]
    · rw [hreg, if_pos rfl, hoverwritten hw hr]; rfl

end Machine
end Sys2Proof
end

/-! ## Proofs about the state chapter: the ports -/
section
namespace Sys2Proof
namespace Machine

variable {l : Load}

/-- Storing bytes that fit: the address `x` at or above the first one reads as its byte, or as before past the last one. -/
theorem Memory.read_store_above (m : Memory) (addr x : Nat) (bs : List Byte) (hfit : addr + bs.length ≤ Config.memSize)
    (hx : addr ≤ x) : (m.store addr bs).read x = bs.getD (x - addr) (m.read x) := by
  induction bs generalizing m addr with
  | nil => rfl
  | cons b bs ih =>
    rw [List.length_cons] at hfit
    rw [Memory.store, if_pos (by omega)]
    rcases Nat.eq_or_lt_of_le hx with rfl | hlt
    · rw [Memory.read_store_below _ _ _ _ (Nat.lt_succ_self _), Memory.read_write_self, Nat.sub_self, List.getD_cons_zero]
    · obtain ⟨d, rfl⟩ := Nat.exists_eq_add_of_lt hlt
      rw [ih _ _ (by omega) hlt, Memory.read_write, if_neg (by omega), show addr + d + 1 - addr = d + 1 by omega,
        show addr + d + 1 - (addr + 1) = d by omega, List.getD_cons_succ]

/-- A load that fits sets the whole state, whatever it was (10_state.md R40). -/
theorem loadPort_of_fits (s : State) (h : l.image.length ≤ 256) : loadPort l s = l.state := if_pos h

/-- An image that is too long is refused (70_reset_and_hazards.md R241). -/
theorem loadPort_of_too_long (s : State) (h : 256 < l.image.length) : loadPort l s = s := if_neg (Nat.not_le.2 h)

/-- Settles O35: the state after a load that fits is `Load.state`, whose memory `Memory.read_store_above` describes. -/
theorem loadSetsEveryPieceOfState : Obligations.LoadSetsEveryPieceOfState := by
  refine fun l s => ⟨fun h => ?_, loadPort_of_too_long s⟩
  rw [loadPort_of_fits s h]
  refine ⟨rfl, rfl, rfl, rfl, rfl, rfl, rfl, fun x => ?_⟩
  exact Memory.read_store_above l.memInit Config.loadAddr x l.image (by simpa using h) (Nat.zero_le x)

/-- Settles O36: reset and `Load.state` both hold `SP_INIT`. -/
theorem stackPointerStartsAtF3 : Obligations.StackPointerStartsAtF3 :=
  ⟨rfl, fun _ s h => congrArg State.sp (loadPort_of_fits s h)⟩

/-- A run is over in HALTED and in ABORTED (70_reset_and_hazards.md R246). -/
theorem State.terminal_iff (s : State) : s.terminal = true ↔ s.run = .halted ∨ s.run = .aborted := by
  cases h : s.run <;> simp [State.terminal, h]

theorem State.not_terminal_iff (s : State) : ¬ s.terminal = true ↔ s.run = .running := by
  cases h : s.run <;> simp [State.terminal, h]

/-- Settles O37: the final state is readable exactly in a terminal state. -/
theorem statusAndFinalStatePorts : Obligations.StatusAndFinalStatePorts := by
  intro s
  refine ⟨rfl, ?_, ?_⟩
  · rw [← s.terminal_iff]; simp [finalStatePort]
  · rw [← s.not_terminal_iff]; simp [finalStatePort]

end Machine
end Sys2Proof
end

/-! ## Proofs about the memory chapter: what a canonical memory lists, and a fetch of a pushed byte -/
section
namespace Sys2Proof
namespace Machine

/-! ### Reads determine a canonical memory -/

/-- Where the addresses rise, a listed cell is what its address reads as (20_memory.md R60). -/
theorem Memory.read_of_mem {m : Memory} (rising : m.Pairwise fun c d => c.1 < d.1) {c : Host.Cell} (hc : c ∈ m) :
    m.read c.1 = c.2 := by
  induction m with
  | nil => cases hc
  | cons d rest ih =>
    obtain ⟨below, risingRest⟩ := List.pairwise_cons.1 rising
    rcases List.mem_cons.1 hc with rfl | hrest
    · exact if_pos rfl
    · calc Memory.read (d :: rest) c.1
        _ = Memory.read rest c.1 := if_neg (below c hrest).ne
        _ = c.2 := ih risingRest hrest

/-- An address that does not read as an unlisted one is listed, with the value it reads as. -/
theorem Memory.mem_of_read_ne_fill {m : Memory} {addr : Nat} (h : m.read addr ≠ fillByte) : (addr, m.read addr) ∈ m := by
  induction m with
  | nil => exact absurd rfl h
  | cons d rest ih =>
    obtain ⟨a, v⟩ := d
    by_cases ha : a = addr
    · simp [Memory.read, ha]
    · rw [Memory.read, if_neg ha] at h ⊢
      exact List.mem_cons_of_mem _ (ih h)

/-- A canonical memory lists exactly the cells that do not read as an unlisted one. -/
theorem Memory.mem_iff_read {m : Memory} (hm : m.wf) (c : Host.Cell) : c ∈ m ↔ m.read c.1 = c.2 ∧ c.2 ≠ fillByte := by
  obtain ⟨rising, cells⟩ := hm
  refine ⟨fun hc => ⟨Memory.read_of_mem rising hc, (cells c hc).2⟩, fun ⟨hread, hv⟩ => ?_⟩
  have listed := Memory.mem_of_read_ne_fill (hread.trans_ne hv)
  rwa [hread] at listed

/-- Settles O42: two canonical memories that read alike list the same cells, and rising addresses leave those cells only one
order. -/
theorem canonicalMemoriesAreEqual : Obligations.CanonicalMemoriesAreEqual := by
  intro m n hm hn hread
  have sameCells (c : Host.Cell) : c ∈ m ↔ c ∈ n := by
    rw [Memory.mem_iff_read hm, Memory.mem_iff_read hn, hread]
  exact List.Pairwise.eq_of_mem_iff (r := InvImage (· < ·) Prod.fst) hm.1 hn.1 sameCells

/-! ### A fetch sees what PUSH wrote -/

/-- Settles O41: the PUSH completes and writes the cell at the new `sp`, which is below 0xF3, so that all three bytes of a fetch
there are inside memory. -/
theorem pushedByteIsFetched : Obligations.PushedByteIsFetched := by
  intro s t a ha room legal h
  have hs : s.sp ≠ 0 := by
    rintro hzero
    simp [hzero] at room
  rw [exec_of_completed (.push ha hs)] at h
  cases h
  have inside : (s.sp - 1).toNat ≤ 253 := by
    rw [sp_sub_one_toNat s hs]; omega
  exact ⟨_, fetch_inside _ inside, Memory.read_write_self s.mem _ _⟩

end Machine
end Sys2Proof
end

/-! ## Proofs about the encoding chapter: the decoder inverts the encoder, and what an assembler emits -/
section
namespace Sys2Proof

/-! ### An opcode map as a one-to-one table -/

/-- In a list whose keys are all different, the first element with a key is the only one. -/
theorem find?_key_eq_some_iff {α β : Type} [BEq β] [LawfulBEq β] {key : α → β} {l : List α} (nodup : (l.map key).Nodup)
    (k : β) (x : α) : l.find? (fun y => key y == k) = some x ↔ x ∈ l ∧ key x = k := by
  refine ⟨fun h => ⟨List.mem_of_find?_eq_some h, by simpa using List.find?_some h⟩, fun ⟨hx, hk⟩ => ?_⟩
  cases h : l.find? (fun y => key y == k) with
  | none => exact absurd hk (by simpa using List.find?_eq_none.1 h x hx)
  | some y =>
    have hy : key y = k := by simpa using List.find?_some h
    rw [List.inj_on_of_nodup_map nodup (List.mem_of_find?_eq_some h) hx (hy.trans hk.symm)]

/-- A byte names an instruction exactly when the map has that row (30_encoding.md R74). -/
theorem OpcodeMap.mnemonicOf_eq_some_iff {map : OpcodeMap} (wf : map.wellFormed) (op : Byte) (m : Mnemonic) :
    map.mnemonicOf op = some m ↔ (op, m) ∈ map := by
  simp [OpcodeMap.mnemonicOf, find?_key_eq_some_iff wf.1]

/-- A byte names no instruction exactly when no row has it. -/
theorem OpcodeMap.mnemonicOf_eq_none_iff (map : OpcodeMap) (op : Byte) :
    map.mnemonicOf op = none ↔ op ∉ map.map (·.1) := by
  simp only [OpcodeMap.mnemonicOf, Option.map_eq_none_iff, List.find?_eq_none, beq_iff_eq, List.mem_map, not_exists, not_and]

theorem Mnemonic.mem_all (m : Mnemonic) : m ∈ Mnemonic.all := by cases m <;> decide

/-- The byte of an instruction is the one of its row: a well-formed map has a row for every instruction, and only one. -/
theorem OpcodeMap.byteOf_eq_iff {map : OpcodeMap} (wf : map.wellFormed) (m : Mnemonic) (op : Byte) :
    map.byteOf m = op ↔ (op, m) ∈ map := by
  obtain ⟨_, names, total⟩ := wf
  have ofRow (x : Byte) (hx : (x, m) ∈ map) : map.byteOf m = x := by
    simp [OpcodeMap.byteOf, (find?_key_eq_some_iff names m (x, m)).2 ⟨hx, rfl⟩]
  obtain ⟨⟨x, _⟩, hx, rfl⟩ := List.mem_map.1 (total m m.mem_all)
  exact ⟨fun h => by rwa [← h, ofRow x hx], ofRow op⟩

/-- Looking up a byte and looking up a name are inverse. -/
theorem OpcodeMap.mnemonicOf_eq_some_iff_byteOf {map : OpcodeMap} (wf : map.wellFormed) (op : Byte) (m : Mnemonic) :
    map.mnemonicOf op = some m ↔ map.byteOf m = op := by
  rw [OpcodeMap.mnemonicOf_eq_some_iff wf, OpcodeMap.byteOf_eq_iff wf]

/-! ### Decode and encode -/

/-- The name and two operand bytes make the instruction exactly when they are its operand bytes and ignored ones (R71). -/
theorem instrOf_mnemonic_eq_iff (i : Instr) (a b : Byte) : instrOf i.mnemonic a b = i ↔ i.operandBytes <+: [a, b] := by
  have one (x : Byte) : [x] <+: [a, b] ↔ a = x := by simp [List.cons_prefix_cons, eq_comm]
  have two (x y : Byte) : [x, y] <+: [a, b] ↔ a = x ∧ b = y := by simp [List.cons_prefix_cons, eq_comm]
  cases i with
  | hlt | ret | iret => simp [instrOf, Instr.mnemonic, Instr.operandBytes]
  | ldi x y | add x y | mul x y | cmp x y => simp [instrOf, Instr.mnemonic, Instr.operandBytes, two]
  | prn x | push x | pop x | call x | jmp x | jeq x | jne x => simp [instrOf, Instr.mnemonic, Instr.operandBytes, one]

/-- A window decodes to an instruction exactly when its first byte names it and the other two make it. -/
theorem decodeWith_eq_ok_iff (map : OpcodeMap) (op a b : Byte) (i : Instr) :
    decodeWith map op a b = .ok i ↔ map.mnemonicOf op = some i.mnemonic ∧ instrOf i.mnemonic a b = i := by
  refine ⟨fun h => (decodeWith_ok h).imp_right Eq.symm, fun ⟨hop, hi⟩ => ?_⟩
  simp [decodeWith, hop, hi]

/-- A window decodes to an instruction exactly when it begins with the instruction's bytes. -/
theorem decodeWith_eq_ok_iff_prefix {map : OpcodeMap} (wf : map.wellFormed) (op a b : Byte) (i : Instr) :
    decodeWith map op a b = .ok i ↔ encodeWith map i <+: [op, a, b] := by
  rw [decodeWith_eq_ok_iff, OpcodeMap.mnemonicOf_eq_some_iff_byteOf wf, instrOf_mnemonic_eq_iff, encodeWith,
    List.cons_prefix_cons]

theorem decode_eq_ok_iff_prefix (op a b : Byte) (i : Instr) : decode op a b = .ok i ↔ encode i <+: [op, a, b] :=
  decodeWith_eq_ok_iff_prefix opcodeMap_wellFormed op a b i

/-- Settles O45: the bytes of `i` followed by ignored bytes are a window that begins with the bytes of `i`. -/
theorem decodeIsTheInverseOfEncodeUnderAnyMap : Obligations.DecodeIsTheInverseOfEncodeUnderAnyMap :=
  fun _ wf op a b i => decodeWith_eq_ok_iff_prefix wf op a b i

theorem encode_length (i : Instr) : (encode i).length = i.operandBytes.length + 1 := rfl

/-- No instruction has more bytes than a fetch reads (R71, R72). -/
theorem encode_length_le (i : Instr) : (encode i).length ≤ Config.fetchWidth := by
  rw [encode_length, operandBytes_length]
  cases i.mnemonic <;> decide

/-- Bytes enough for a fetch decode to the instruction they begin with. -/
theorem decodeBytes_of_prefix {i : Instr} {bytes : List Byte} (hlen : Config.fetchWidth ≤ bytes.length)
    (h : encode i <+: bytes) : decodeBytes bytes = .ok i := by
  match bytes, hlen with
  | op :: a :: b :: rest, _ =>
    have window : encode i <+: [op, a, b] := List.prefix_of_prefix_length_le h ⟨rest, rfl⟩ (encode_length_le i)
    exact (decode_eq_ok_iff_prefix op a b i).2 window

/-- Settles O46: the opcode byte and two more are enough for a fetch. -/
theorem encodedInstructionsDecode : Obligations.EncodedInstructionsDecode := by
  intro i rest hrest
  refine decodeBytes_of_prefix ?_ (List.prefix_append (encode i) rest)
  rw [Config.fetchWidth, List.length_append, encode_length]
  omega

/-- The 14 bytes of R74 are the ones the opcode map has rows for. -/
theorem mem_opcodes_iff (op : Byte) : op ∈ Claims.opcodes ↔ op ∈ Config.opcodeMap.map (·.1) :=
  have sameBytes : Claims.opcodes.Perm (Config.opcodeMap.map (·.1)) := by decide
  sameBytes.mem_iff

/-- A byte outside the table is refused and named (R78). -/
theorem decode_of_not_mem_opcodes {op : Byte} (h : op ∉ Claims.opcodes) (a b : Byte) :
    decode op a b = .error (.unsupportedOpcode op) := by
  have hnone := (Config.opcodeMap.mnemonicOf_eq_none_iff op).2 ((mem_opcodes_iff op).not.1 h)
  simp [decode, decodeWith, hnone]

/-- A byte of the table decodes, whatever the operand bytes. -/
theorem decode_of_mem_opcodes {op : Byte} (h : op ∈ Claims.opcodes) (a b : Byte) : ∃ i, decode op a b = .ok i := by
  cases hd : decode op a b with
  | ok i => exact ⟨i, rfl⟩
  | error e => exact absurd ((mem_opcodes_iff op).1 h) ((Config.opcodeMap.mnemonicOf_eq_none_iff op).1 (decodeWith_error hd).1)

/-- Settles O47. -/
theorem decoderAcceptsExactlyTheTable : Obligations.DecoderAcceptsExactlyTheTable := by
  intro op a b
  refine ⟨⟨fun ⟨i, hi⟩ => ?_, fun h => decode_of_mem_opcodes h a b⟩, fun h => decode_of_not_mem_opcodes h a b⟩
  by_contra h
  rw [decode_of_not_mem_opcodes h] at hi
  cases hi

/-- Settles O48: two windows that share the opcode byte and the operand bytes in use begin with the same instruction. -/
theorem ignoredBytesDoNotMatter : Obligations.IgnoredBytesDoNotMatter := by
  intro op a b a' b' i h
  rw [decode_eq_ok_iff_prefix] at h
  refine ⟨fun h0 => ?_, fun h1 => ?_⟩
  · have used : encode i <+: [op] := List.prefix_of_prefix_length_le h ⟨[a, b], rfl⟩ (by simp [encode_length, h0])
    exact (decode_eq_ok_iff_prefix op a' b' i).2 (used.trans ⟨[a', b'], rfl⟩)
  · have used : encode i <+: [op, a] := List.prefix_of_prefix_length_le h ⟨[b], rfl⟩ (by simp [encode_length, h1])
    exact (decode_eq_ok_iff_prefix op a b' i).2 (used.trans ⟨[b'], rfl⟩)

/-- Settles O50. -/
theorem wordsOfTheSpecDecode : Obligations.WordsOfTheSpecDecode := ⟨rfl, rfl, rfl, rfl, rfl⟩

/-! ### The assembler -/

namespace Machine

/-- Where an instruction has an advance, it is the length of what an assembler emits (R82, 40_decoder_dispatch.md R104). -/
theorem pcAfter_of_advances {i : Instr} {s : State} (h : Claims.advances i s) :
    Claims.pcAfter i s = s.pc + (assemble i).length := by
  cases i with
  | jeq => exact if_neg h
  | jne => exact if_pos h
  | hlt | call | ret | jmp => exact h.elim
  | ldi | prn | add | mul | cmp | push | pop | iret => rfl

/-- Settles O49: the next state still runs, so the instruction completed and its PC follows the table. -/
theorem assembledCodeIsContiguous : Obligations.AssembledCodeIsContiguous := by
  intro i s t _ hadv h ht
  rcases exec_cases h with ⟨a, _, rfl⟩ | ⟨_, _, rfl⟩ | ⟨_, hc⟩
  · cases ht
  · cases ht
  · rw [hc.pc_eq, pcAfter_of_advances hadv]

end Machine
end Sys2Proof
end

/-! ## Proofs about the dispatcher chapter: the step, the end of a run, and PUSH followed by POP -/
section
namespace Sys2Proof
namespace Machine

variable {s : State}

/-! ### The step -/

/-- Settles O15: the three bytes are what a fetch at 253 or below reads. -/
theorem stepRunsTheDecodedInstruction : Obligations.StepRunsTheDecodedInstruction :=
  fun s _ hr hp hd => step_of_decode_ok hr (fetch_inside s hp) hd

/-- Settles O14: HLT decodes from its byte alone, and it completes with `State.halt`. -/
theorem hltHaltsInPlace : Obligations.HltHaltsInPlace :=
  fun _ _ _ => ⟨rfl, exec_of_completed .hlt⟩

/-- A RUNNING step above 253 aborts at the first address past memory (40_decoder_dispatch.md R101). -/
theorem step_of_fetch_outside (hr : s.run = .running) (hp : ¬ s.pc ≤ 253) :
    step s = .next (Claims.outOfBoundsAbort s (if s.pc < Config.memSize then some (s.mem.read s.pc) else none) .mem
      (max s.pc Config.memSize)) :=
  step_of_fetch_error hr (fetch_outside s hp)

/-- Settles O16: at 254 and 255 the opcode is inside memory and address 256 is not, from 256 up not even the opcode is. -/
theorem fetchPastMemoryAborts : Obligations.FetchPastMemoryAborts := by
  refine fun s hr => ⟨fun hp => ?_, fun hp => ?_, fun hp => ?_⟩
  · rw [step_of_fetch_outside hr (by omega), hp]; rfl
  · rw [step_of_fetch_outside hr (by omega), hp]; rfl
  · rw [step_of_fetch_outside hr (by omega), if_neg (Nat.not_lt.2 hp), Nat.max_eq_left hp]

/-- The meaning of every instruction ends in a commit, which always answers a next state (R106). -/
theorem exec_answers_next (i : Instr) (s : State) : ∃ t, exec i s = .next t := by
  cases i with
  | hlt => exact commit_answers_next s (.ok (s, .halt))
  | iret => exact commit_answers_next s (.ok (s, .advance Config.iretAdvance))
  | _ => exact commit_answers_next s _

/-- A step answers a next state, in each of its branches. -/
theorem step_answers_next (s : State) : ∃ t, step s = .next t := by
  by_cases hr : s.run = .running
  · cases hf : fetch s with
    | error r => exact ⟨_, step_of_fetch_error hr hf⟩
    | ok w =>
      cases hd : decode w.op w.a w.b with
      | error e => exact ⟨_, step_of_decode_error hr hf hd⟩
      | ok i => rw [step_of_decode_ok hr hf hd]; exact exec_answers_next i s
  · exact ⟨s, step_of_not_running hr⟩

/-- Settles O19. -/
theorem everyStepAnswersNext : Obligations.EveryStepAnswersNext := ⟨exec_answers_next, step_answers_next⟩

/-! ### The end of a run -/

/-- Settles O24: a step from such a state is no move at all, so a move that changes it is a load. -/
theorem terminalStatesAreFinal : Obligations.TerminalStatesAreFinal := by
  intro s hn
  have fixed : step s = .next s := step_of_not_running hn
  refine ⟨run_of_fixed Sys2Proof.core s fixed, fun mv t h hne => ?_⟩
  cases mv with
  | load l => exact ⟨l, rfl⟩
  | step =>
    cases fixed.symm.trans h
    exact absurd rfl hne

/-! ### PUSH followed by POP -/

theorem State.sp_ne_zero (room : 1 ≤ s.sp.toNat) : s.sp ≠ 0 := by
  intro hzero
  simp [hzero] at room

/-- What a push leaves on the stack can be popped (42_stack_call.md R142). -/
theorem sp_sub_one_lt_spInit (hs : s.sp ≠ 0) (legal : s.sp.toNat ≤ 243) : (s.sp - 1).toNat < Config.spInit.toNat := by
  have room := s.one_le_sp hs
  rw [sp_sub_one_toNat s hs, Config.spInit_toNat]
  omega

/-- Settles O38: both instructions complete, the POP at the `sp` the PUSH left, where it reads the byte the PUSH wrote. -/
theorem pushThenPopMovesTheValue : Obligations.PushThenPopMovesTheValue := by
  intro s a b ha hb room legal
  have hs : s.sp ≠ 0 := State.sp_ne_zero room
  have below : (s.sp - 1).toNat = s.sp.toNat - 1 := sp_sub_one_toNat s hs
  have restored : s.sp - 1 + 1 = s.sp := BitVec.sub_add_cancel s.sp 1
  have pushed (v : Byte) : (s.mem.write (s.sp - 1).toNat v).read (s.sp - 1).toNat = v := Memory.read_write_self _ _ _
  refine ⟨_, _, exec_of_completed (.push ha hs), exec_of_completed (.pop hb (sp_sub_one_lt_spInit hs legal)),
    congrArg (s.regs.set b.toNat · hb) (pushed _), restored, rfl, ?_, fun x hx => ?_, ?_⟩
  · rw [← below]; exact pushed _
  · rw [← below] at hx; exact (Memory.read_write s.mem _ x _).trans (if_neg hx)
  · simp only [State.setPc_sp, State.setCell_sp, State.setSp_sp, restored]; rfl

end Machine
end Sys2Proof
end

/-! ## Proofs about the ALU chapter: ADD, MUL and CMP, and the select no program reaches -/
section
namespace Sys2Proof
namespace Machine

variable {s : State} {i : Instr}

/-! ### The ALU -/

/-- Settles O51: the ALU's three cases are `aluAdd`, `aluMul` and `compareFlags` of the two registers. -/
theorem aluReadsItsOperandsBeforeItWrites : Obligations.AluReadsItsOperandsBeforeItWrites :=
  ⟨⟨aluAdd, alu_add⟩, ⟨aluMul, alu_mul⟩, ⟨compareFlags, alu_cmp⟩⟩

/-- The ALU raises exactly on a select outside {ADD, MUL, CMP} (41_alu.md R121). -/
theorem alu_eq_error_iff (select : AluOp) (i j : Fin Config.nreg) (s : State) :
    alu select i j s = .error .unsupportedALUOperation ↔ ∃ code, select = .other code := by
  cases select with
  | other code => exact iff_of_true rfl ⟨code, rfl⟩
  | add | mul | cmp => exact iff_of_false nofun nofun

/-- None of the four places a step can raise is the ALU (60_exceptions.md R202). -/
theorem Raises.kind_ne_unsupportedALUOperation {r : ErrorReport} (h : Raises s r) : r.kind ≠ .unsupportedALUOperation := by
  cases h <;> exact nofun

/-- Settles O44: a step that reports anything has aborted with a report of `Raises`. -/
theorem aluRejectsOtherSelects : Obligations.AluRejectsOtherSelects := by
  refine ⟨alu_eq_error_iff, fun s t r hr hnone h herr => ?_⟩
  rcases step_outcomes h with ⟨hn, _⟩ | ⟨_, q, hraises, rfl⟩ | ⟨_, _, i, hc, _⟩
  · exact absurd hr hn
  · cases herr
    exact hraises.kind_ne_unsupportedALUOperation
  · rw [hc.err_eq, hnone] at herr
    cases herr

/-! ### What the instructions compute -/

/-- ADD's result with its reduction mod 256 written out, as 41_alu.md R122 does. -/
theorem aluAdd_eq_ofNat_mod (x y : Byte) : aluAdd x y = BitVec.ofNat 8 ((x.toNat + y.toNat) % 256) :=
  BitVec.eq_of_toNat_eq (by simp)

/-- MUL's result with its reduction mod 256 written out, as 41_alu.md R123 does. -/
theorem aluMul_eq_ofNat_mod (x y : Byte) : aluMul x y = BitVec.ofNat 8 ((x.toNat * y.toNat) % 256) :=
  BitVec.eq_of_toNat_eq (by simp)

theorem compareFlags_of_eq {x y : Byte} (h : x.toNat = y.toNat) : compareFlags x y = .equal := if_pos h

theorem compareFlags_of_lt {x y : Byte} (h : x.toNat < y.toNat) : compareFlags x y = .lessThan := by
  rw [compareFlags, if_neg h.ne, if_pos h]

theorem compareFlags_of_gt {x y : Byte} (h : y.toNat < x.toNat) : compareFlags x y = .greaterThan := by
  rw [compareFlags, if_neg h.ne', if_neg h.not_gt]

/-! ### The register checks, in their order -/

/-- An invalid first register field aborts, whatever the other is (40_decoder_dispatch.md R105). -/
theorem exec_of_first_field_invalid {a : Byte} {rest : List Byte} (hfields : i.registerFields = a :: rest)
    (ha : 8 ≤ a.toNat) : exec i s = .next (Claims.outOfBoundsAbort s (some (opcodeOf i.mnemonic)) .reg a.toNat) :=
  exec_of_register_invalid (by simp [hfields, ha])

/-- An invalid second register field aborts when the first is valid (60_exceptions.md R208). -/
theorem exec_of_second_field_invalid {a b : Byte} {rest : List Byte} (hfields : i.registerFields = a :: b :: rest)
    (ha : a.toNat < 8) (hb : 8 ≤ b.toNat) :
    exec i s = .next (Claims.outOfBoundsAbort s (some (opcodeOf i.mnemonic)) .reg b.toNat) :=
  exec_of_register_invalid (by simp [hfields, hb, Nat.not_le.2 ha])

/-! ### ADD, MUL, CMP -/

/-- Settles O3: an ADD that completes writes `aluAdd` of its registers, and each invalid field aborts in the order of R208. -/
theorem addWritesTheSumMod256 : Obligations.AddWritesTheSumMod256 := by
  intro s a b
  refine ⟨rfl, fun ha hb => ?_, exec_of_first_field_invalid rfl, exec_of_second_field_invalid rfl⟩
  rw [exec_of_completed (.add ha hb), aluAdd_eq_ofNat_mod]
  rfl

/-- Settles O4: as ADD, with `aluMul`. -/
theorem mulWritesTheProductMod256 : Obligations.MulWritesTheProductMod256 := by
  intro s a b
  refine ⟨rfl, fun ha hb => ?_, exec_of_first_field_invalid rfl, exec_of_second_field_invalid rfl⟩
  rw [exec_of_completed (.mul ha hb), aluMul_eq_ofNat_mod]
  rfl

/-- Settles O5: a CMP that completes writes `compareFlags` of its registers, which has the three cases of R124. -/
theorem cmpSetsTheFlags : Obligations.CmpSetsTheFlags := by
  intro s a b
  refine ⟨rfl, fun ha hb => ?_, exec_of_first_field_invalid rfl, exec_of_second_field_invalid rfl⟩
  have completes (f : Flags) (hf : compareFlags (s.reg ⟨a.toNat, ha⟩) (s.reg ⟨b.toNat, hb⟩) = f) :
      exec (.cmp a b) s = .next { s with fl := f, pc := s.pc + 3 } := by
    rw [exec_of_completed (.cmp ha hb), hf]
    rfl
  exact ⟨fun h => completes _ (compareFlags_of_eq h), fun h => completes _ (compareFlags_of_lt h),
    fun h => completes _ (compareFlags_of_gt h)⟩

end Machine
end Sys2Proof
end

/-! ## Proofs about the stack chapter: PUSH, POP, CALL and RET, alone and in a row -/
section
namespace Sys2Proof
namespace Machine

/-! ### The state a push leaves -/

/-- `s` after a push of `v` that has room (42_stack_call.md R140): what `pushByte_room` answers. -/
def State.pushed (s : State) (v : Byte) : State := (s.setSp (s.sp - 1)).setCell (s.sp - 1).toNat v

variable {s : State} {i : Instr}

theorem exec_push {a : Byte} (ha : a.toNat < 8) (hs : s.sp ≠ 0) :
    exec (.push a) s = .next ((s.pushed (s.reg ⟨a.toNat, ha⟩)).setPc (s.pc + 3)) :=
  exec_of_completed (.push ha hs)

theorem exec_call {a : Byte} (ha : a.toNat < 8) (hs : s.sp ≠ 0) :
    exec (.call a) s = .next ((s.pushed (returnAddress s.pc)).setPc (s.reg ⟨a.toNat, ha⟩).toNat) :=
  exec_of_completed (.call ha hs)

theorem State.pushed_read_sp (s : State) (v : Byte) : (s.pushed v).mem.read (s.pushed v).sp.toNat = v :=
  Memory.read_write_self s.mem _ v

theorem State.pushed_read_below (hs : s.sp ≠ 0) (v : Byte) : (s.pushed v).mem.read (s.sp.toNat - 1) = v := by
  rw [← sp_sub_one_toNat s hs]
  exact s.pushed_read_sp v

/-- A push changes one cell (10_state.md R38). -/
theorem State.pushed_read_of_ne (hs : s.sp ≠ 0) (v : Byte) {x : Nat} (hx : x ≠ s.sp.toNat - 1) :
    (s.pushed v).mem.read x = s.mem.read x := by
  rw [← sp_sub_one_toNat s hs] at hx
  exact (Memory.read_write s.mem _ x v).trans (if_neg hx)

/-- The return address of a fetched instruction fits in its byte (42_stack_call.md R145). -/
theorem returnAddress_toNat {p : Nat} (hp : p ≤ 253) : (returnAddress p).toNat = p + 2 :=
  Nat.mod_eq_of_lt (by omega)

/-! ### A pop of what was just pushed, with the PC anywhere -/

/-- A pop undoes a push's move of `sp`, at `sp = 0` too. -/
theorem State.pushed_sp_add_one (s : State) (v : Byte) : (s.pushed v).sp + 1 = s.sp := BitVec.sub_add_cancel s.sp 1

theorem exec_ret_of_pushed (hs : s.sp ≠ 0) (legal : s.sp.toNat ≤ 243) (v : Byte) (x : Nat) :
    exec .ret ((s.pushed v).setPc x) = .next (((s.pushed v).setSp s.sp).setPc v.toNat) := by
  rw [exec_of_completed (.ret (sp_sub_one_lt_spInit hs legal)), State.setPc_mem, State.setPc_sp, s.pushed_read_sp,
    s.pushed_sp_add_one]
  rfl

theorem exec_pop_of_pushed {b : Byte} (hb : b.toNat < 8) (hs : s.sp ≠ 0) (legal : s.sp.toNat ≤ 243) (v : Byte) (x : Nat) :
    exec (.pop b) ((s.pushed v).setPc x) =
      .next ((((s.pushed v).setSp s.sp).setReg ⟨b.toNat, hb⟩ v).setPc (x + 3)) := by
  rw [exec_of_completed (.pop hb (sp_sub_one_lt_spInit hs legal)), State.setPc_mem, State.setPc_sp, s.pushed_read_sp,
    s.pushed_sp_add_one]
  rfl

/-! ### The stack bounds -/

/-- An instruction with one valid register field whose stack bound fails aborts (42_stack_call.md R141, R142). -/
theorem exec_of_stack_fails_one_field {a : Byte} (hfields : i.registerFields = [a]) (ha : a.toNat < 8) (h : StackFails s i) :
    exec i s = .next (Claims.outOfBoundsAbort s (some (opcodeOf i.mnemonic)) .stack s.sp.toNat) :=
  exec_of_stack_fails (by simpa [Instr.wellFormed, hfields] using ha) h

/-- The bound of a push fails only at 0, which is then the index of the report (R141). -/
theorem exec_of_full_stack {a : Byte} (hfields : i.registerFields = [a]) (ha : a.toNat < 8) (hzero : s.sp.toNat = 0)
    (h : s.sp = 0 → StackFails s i) :
    exec i s = .next (Claims.outOfBoundsAbort s (some (opcodeOf i.mnemonic)) .stack 0) := by
  rw [exec_of_stack_fails_one_field hfields ha (h (BitVec.eq_of_toNat_eq hzero)), hzero]

/-! ### Each instruction alone -/

/-- Settles O6: a PUSH with room leaves `State.pushed` of the register, the PC moved. -/
theorem pushStoresBelowSp : Obligations.PushStoresBelowSp := by
  intro s a ignored
  refine ⟨rfl, fun ha room => ?_, exec_of_first_field_invalid rfl, fun ha hzero => exec_of_full_stack rfl ha hzero .push⟩
  have hs : s.sp ≠ 0 := State.sp_ne_zero room
  exact ⟨_, exec_push ha hs, sp_sub_one_toNat s hs, rfl, State.pushed_read_below hs _,
    fun _ hx => State.pushed_read_of_ne hs _ hx, rfl⟩

/-- Settles O7: below `SP_INIT` the raised `sp` does not wrap. -/
theorem popLoadsFromSp : Obligations.PopLoadsFromSp := by
  intro s a ignored
  refine ⟨rfl, fun ha nonempty => ?_, exec_of_first_field_invalid rfl,
    fun ha empty => exec_of_stack_fails_one_field rfl ha (.pop (Nat.not_lt.2 empty))⟩
  exact ⟨_, exec_of_completed (.pop ha nonempty), sp_add_one_toNat s nonempty, rfl⟩

/-- Settles O8: as PUSH, with the return address and a jump. -/
theorem callPushesTheReturnAddress : Obligations.CallPushesTheReturnAddress := by
  intro s a ignored
  refine ⟨rfl, fun ha room fetched => ?_, exec_of_first_field_invalid rfl,
    fun ha hzero => exec_of_full_stack rfl ha hzero .call⟩
  have hs : s.sp ≠ 0 := State.sp_ne_zero room
  have pushedByte := congrArg BitVec.toNat (State.pushed_read_below hs (returnAddress s.pc))
  exact ⟨_, exec_call ha hs, sp_sub_one_toNat s hs, rfl, pushedByte.trans (returnAddress_toNat fetched),
    fun _ hx => State.pushed_read_of_ne hs _ hx, rfl⟩

/-- Settles O9: as POP, with the byte in the PC; RET has no register field to check. -/
theorem retPopsThePc : Obligations.RetPopsThePc := by
  intro s ignored ignored'
  refine ⟨rfl, fun nonempty => ?_, fun empty => exec_of_stack_fails nofun (.ret (Nat.not_lt.2 empty))⟩
  exact ⟨_, exec_of_completed (.ret nonempty), sp_add_one_toNat s nonempty, rfl⟩

/-! ### Two instructions in a row -/

/-- Settles O39: RET pops the return address that CALL pushed. -/
theorem callThenRetReturns : Obligations.CallThenRetReturns := by
  intro s a ha room legal fetched
  have hs : s.sp ≠ 0 := State.sp_ne_zero room
  exact ⟨_, _, exec_call ha hs, exec_ret_of_pushed hs legal _ _, returnAddress_toNat fetched, rfl,
    fun _ hx => State.pushed_read_of_ne hs _ hx⟩

/-- Settles O40: RET and POP pop whatever byte was pushed (42_stack_call.md R147). -/
theorem unmatchedStackUseIsDefined : Obligations.UnmatchedStackUseIsDefined := by
  intro s a b ha hb room legal
  have hs : s.sp ≠ 0 := State.sp_ne_zero room
  refine ⟨⟨_, _, exec_push ha hs, exec_ret_of_pushed hs legal _ _, rfl, rfl, rfl⟩, fun fetched => ?_⟩
  have loaded : (s.regs.set b.toNat (returnAddress s.pc) hb)[b.toNat] = returnAddress s.pc := Vector.getElem_set_self hb
  exact ⟨_, _, exec_call ha hs, exec_pop_of_pushed hb hs legal _ _,
    (congrArg BitVec.toNat loaded).trans (returnAddress_toNat fetched), rfl, rfl⟩

end Machine
end Sys2Proof
end

/-! ## Proofs about the branch and output chapter: LDI, PRN, JMP, JEQ, JNE and IRET -/
section
namespace Sys2Proof
namespace Machine

/-- Settles O1: with a valid field LDI completes, with the immediate in the register. -/
theorem ldiWritesItsImmediate : Obligations.LdiWritesItsImmediate :=
  fun _ _ _ => ⟨rfl, fun ha => exec_of_completed (.ldi ha), exec_of_first_field_invalid rfl⟩

/-- Settles O2: with a valid field PRN completes, with the register emitted. -/
theorem prnEmitsItsRegister : Obligations.PrnEmitsItsRegister :=
  fun _ _ _ => ⟨rfl, fun ha => exec_of_completed (.prn ha), exec_of_first_field_invalid rfl⟩

/-- Settles O10: with a valid field JMP completes, and writes the PC alone. -/
theorem jmpSetsThePc : Obligations.JmpSetsThePc :=
  fun _ _ _ => ⟨rfl, fun ha => exec_of_completed (.jmp ha), exec_of_first_field_invalid rfl⟩

/-- Settles O11: with a valid field JEQ completes whatever `fl` is, and the field is checked before `fl` is tested. -/
theorem jeqBranchesOnEqual : Obligations.JeqBranchesOnEqual :=
  fun _ _ _ => ⟨rfl, fun ha => exec_of_completed (.jeq ha), exec_of_first_field_invalid rfl⟩

/-- Settles O12: as JEQ, with the branches of the test exchanged. -/
theorem jneBranchesOnNotEqual : Obligations.JneBranchesOnNotEqual := by
  intro s a ignored
  refine ⟨rfl, fun ha => ?_, exec_of_first_field_invalid rfl⟩
  rw [exec_of_completed (.jne ha), ite_not]
  rfl

/-- Settles O13: IRET has no register field to check, and completes with the PC moved by `IRET_ADVANCE`. -/
theorem iretOnlyAdvances : Obligations.IretOnlyAdvances :=
  fun _ _ _ => ⟨rfl, exec_of_completed .iret⟩

end Machine
end Sys2Proof
end

/-! ## Proofs about the exceptions chapter: the checks of a step in their order, and no other cause of an abort -/
section
namespace Sys2Proof

/-! ### The register fields, by the opcode byte -/

/-- The lists of opcode bytes name the register fields of 30_encoding.md R72. -/
theorem registerFields_instrOf (m : Mnemonic) (a b : Byte) :
    (instrOf m a b).registerFields =
      (if opcodeOf m ∈ Claims.opcodesWithA then [a] else []) ++ (if opcodeOf m ∈ Claims.opcodesWithB then [b] else []) := by
  cases m <;> rfl

/-- The first invalid register field: field `a` before field `b` (60_exceptions.md R208). -/
theorem find?_registerFields_instrOf (m : Mnemonic) (a b : Byte) :
    (instrOf m a b).registerFields.find? (fun x => decide (Config.nreg ≤ x.toNat)) =
      if opcodeOf m ∈ Claims.opcodesWithA ∧ 8 ≤ a.toNat then some a
      else if opcodeOf m ∈ Claims.opcodesWithB ∧ 8 ≤ b.toNat then some b
      else none := by
  have field (p : Prop) [Decidable p] (x : Byte) :
      (if p then [x] else []).find? (fun y => decide (Config.nreg ≤ y.toNat)) = if p ∧ 8 ≤ x.toNat then some x else none := by
    by_cases hp : p <;> simp [hp, List.find?_singleton]
  rw [registerFields_instrOf, List.find?_append, field, field]
  split <;> rfl

namespace Machine

variable {s : State} {i : Instr}

/-! ### The stack bound -/

/-- The stack bound that fails, by the opcode byte (42_stack_call.md R141, R142). -/
theorem stackFails_iff :
    StackFails s i ↔
      (opcodeOf i.mnemonic = 0x45#8 ∨ opcodeOf i.mnemonic = 0x50#8) ∧ s.sp.toNat = 0 ∨
      (opcodeOf i.mnemonic = 0x46#8 ∨ opcodeOf i.mnemonic = 0x11#8) ∧ 243 ≤ s.sp.toNat := by
  simp only [← opcodeOf_push, ← opcodeOf_call, ← opcodeOf_pop, ← opcodeOf_ret, opcodeOf_injective.eq_iff]
  refine ⟨fun h => ?_, fun h => ?_⟩
  · cases h with
    | push hs => exact .inl ⟨.inl rfl, by simp [hs]⟩
    | call hs => exact .inl ⟨.inr rfl, by simp [hs]⟩
    | pop hs => exact .inr ⟨.inl rfl, Nat.not_lt.1 hs⟩
    | ret hs => exact .inr ⟨.inr rfl, Nat.not_lt.1 hs⟩
  · rcases h with ⟨hi, hs⟩ | ⟨hi, hs⟩
    · have full : s.sp = 0 := BitVec.eq_of_toNat_eq hs
      cases i with
      | push => exact .push full
      | call => exact .call full
      | _ => simp [Instr.mnemonic] at hi
    · have empty : ¬ s.sp.toNat < Config.spInit.toNat := Nat.not_lt.2 hs
      cases i with
      | pop => exact .pop empty
      | ret => exact .ret empty
      | _ => simp [Instr.mnemonic] at hi

/-- An instruction with room on the stack does not fail its bound. -/
theorem StackFails.not_stackRoom (h : StackFails s i) : ¬ Claims.stackRoom i s := by
  cases h with
  | push hs | call hs => simp [Claims.stackRoom, hs]
  | pop hs | ret hs => exact hs

/-- Settles O21: a well-formed instruction that does not fail its stack bound completes. -/
theorem wellFormedInstructionsComplete : Obligations.WellFormedInstructionsComplete := by
  intro i s hr hw hroom
  obtain ⟨t, hc⟩ := (completed_or_stack_fails s i hw).resolve_right fun h => h.not_stackRoom hroom
  exact ⟨t, exec_of_completed hc, hc.run_ne_aborted hr, hc.err_eq⟩

/-! ### The decode -/

/-- A RUNNING step at a byte outside the table aborts without a detail (60_exceptions.md R201). -/
theorem step_of_unlisted_opcode (hr : s.run = .running) (hp : s.pc ≤ 253) (hop : s.mem.read s.pc ∉ Claims.opcodes) :
    step s = .next (s.abort (report s .unsupportedOpcode (some (s.mem.read s.pc)) none)) :=
  step_of_decode_error hr (fetch_inside s hp) (decode_of_not_mem_opcodes hop _ _)

/-- Settles O17. -/
theorem unlistedOpcodeAborts : Obligations.UnlistedOpcodeAborts := fun _ => step_of_unlisted_opcode

/-! ### The first failing check -/

/-- A list of checks reports at its head, or what the rest of it reports. -/
theorem find?_check_cons (p : Prop) [Decidable p] (r : ErrorReport) (rest : List (Bool × ErrorReport)) :
    ((decide p, r) :: rest).find? (·.1) = if p then some (true, r) else rest.find? (·.1) := by
  by_cases hp : p <;> simp [hp]

/-- Above 253 the first failing check is the fetch of the first address past memory (40_decoder_dispatch.md R101). -/
theorem find?_checks_of_fetch_outside (hp : ¬ s.pc ≤ 253) :
    (Claims.checks s).find? (·.1) = some (true, boundsReport s
      (if s.pc < Config.memSize then some (s.mem.read s.pc) else none) .mem (max s.pc Config.memSize)) := by
  simp only [Claims.checks, find?_check_cons]
  by_cases h0 : 256 ≤ s.pc
  · rw [if_pos h0, if_neg (Nat.not_lt.2 h0), Nat.max_eq_left h0]; rfl
  · have inside : s.pc < Config.memSize := Nat.lt_of_not_le h0
    rw [if_neg h0, if_pos inside, Nat.max_eq_right inside.le]
    by_cases h1 : 256 ≤ s.pc + 1
    · have past : s.pc + 1 = Config.memSize := Nat.le_antisymm inside h1
      rw [if_pos h1, past]; rfl
    · have past : s.pc + 2 = Config.memSize := by rw [Config.memSize_eq]; omega
      rw [if_neg h1, if_pos past.ge, past]; rfl

/-- At 253 and below the three checks of the fetch pass. -/
theorem find?_checks_of_fetch_inside (hp : s.pc ≤ 253) :
    (Claims.checks s).find? (·.1) = ((Claims.checks s).drop 3).find? (·.1) := by
  simp only [Claims.checks, find?_check_cons, List.drop]
  rw [if_neg (by omega), if_neg (by omega), if_neg (by omega)]

/-- At a byte outside the table the first failing check is the decode (60_exceptions.md R201). -/
theorem find?_checks_of_unlisted_opcode (hp : s.pc ≤ 253) (hop : s.mem.read s.pc ∉ Claims.opcodes) :
    (Claims.checks s).find? (·.1) = some (true, report s .unsupportedOpcode (some (s.mem.read s.pc)) none) := by
  rw [find?_checks_of_fetch_inside hp]
  simp only [Claims.checks, List.drop, find?_check_cons]
  exact if_pos hop

/-- Once fetch and decode pass, the operand checks of the decoded instruction are left (60_exceptions.md R208): it raises the
first of them that fails, and completes when none does. -/
theorem exec_first_failing_check (hp : s.pc ≤ 253)
    (hd : decode (s.mem.read s.pc) (s.mem.read (s.pc + 1)) (s.mem.read (s.pc + 2)) = .ok i) :
    (∃ r, (Claims.checks s).find? (·.1) = some (true, r) ∧ exec i s = .next (s.abort r)) ∨
    ((Claims.checks s).find? (·.1) = none ∧ ∃ t, Completed s i t) := by
  have listed : s.mem.read s.pc ∈ Claims.opcodes := (decoderAcceptsExactlyTheTable _ _ _).1.1 ⟨i, hd⟩
  obtain ⟨hop, hi⟩ := decode_ok hd
  have fields := find?_registerFields_instrOf i.mnemonic (s.mem.read (s.pc + 1)) (s.mem.read (s.pc + 2))
  rw [← hi, ← hop] at fields
  have stack := stackFails_iff (s := s) (i := i)
  rw [← hop] at stack
  rw [find?_checks_of_fetch_inside hp]
  simp only [Claims.checks, List.drop, find?_check_cons, List.find?_nil, if_neg (not_not.2 listed)]
  by_cases hA : s.mem.read s.pc ∈ Claims.opcodesWithA ∧ 8 ≤ (s.mem.read (s.pc + 1)).toNat
  · rw [if_pos hA] at fields ⊢
    exact .inl ⟨_, rfl, hop ▸ exec_of_register_invalid fields⟩
  rw [if_neg hA] at fields ⊢
  by_cases hB : s.mem.read s.pc ∈ Claims.opcodesWithB ∧ 8 ≤ (s.mem.read (s.pc + 2)).toNat
  · rw [if_pos hB] at fields ⊢
    exact .inl ⟨_, rfl, hop ▸ exec_of_register_invalid fields⟩
  rw [if_neg hB] at fields ⊢
  have wellFormed : i.wellFormed := fun a ha => by simpa using List.find?_eq_none.1 fields a ha
  by_cases hS : StackFails s i
  · rw [if_pos (stack.1 hS)]
    exact .inl ⟨_, rfl, hop ▸ exec_of_stack_fails wellFormed hS⟩
  · rw [if_neg (stack.not.1 hS)]
    exact .inr ⟨rfl, (completed_or_stack_fails s i wellFormed).resolve_right hS⟩

/-- A RUNNING step raises the first check that fails, and completes an instruction when none does. -/
theorem step_first_failing_check (hr : s.run = .running) :
    (∃ r, (Claims.checks s).find? (·.1) = some (true, r) ∧ step s = .next (s.abort r)) ∨
    ((Claims.checks s).find? (·.1) = none ∧ ∃ i t, step s = .next t ∧ Completed s i t) := by
  by_cases hp : s.pc ≤ 253
  · by_cases hop : s.mem.read s.pc ∈ Claims.opcodes
    · obtain ⟨i, hd⟩ := decode_of_mem_opcodes hop (s.mem.read (s.pc + 1)) (s.mem.read (s.pc + 2))
      rw [step_of_decode_ok hr (fetch_inside s hp) hd]
      exact (exec_first_failing_check hp hd).imp_right fun ⟨hnone, t, hc⟩ => ⟨hnone, i, t, exec_of_completed hc, hc⟩
    · exact .inl ⟨_, find?_checks_of_unlisted_opcode hp hop, step_of_unlisted_opcode hr hp hop⟩
  · exact .inl ⟨_, find?_checks_of_fetch_outside hp, step_of_fetch_error hr (fetch_outside s hp)⟩

/-- Settles O18, by the two cases of `step_first_failing_check`. -/
theorem stepRaisesTheFirstFailingCheck : Obligations.StepRaisesTheFirstFailingCheck := by
  intro s hr
  rcases step_first_failing_check hr with ⟨r, hfirst, hstep⟩ | ⟨hnone, i, t, hstep, hc⟩
  · rw [hfirst]
    refine ⟨fun c hfound => ?_, nofun⟩
    cases hfound
    exact hstep
  · rw [hnone]
    exact ⟨nofun, fun _ => ⟨t, hstep, hc.run_ne_aborted hr, hc.err_eq⟩⟩

end Machine
end Sys2Proof
end

/-! ## Proofs about the reset chapter: reset, loads and every move of the host keep the invariant -/
section
namespace Sys2Proof
namespace Machine

variable {s : State} {l : Load}

/-- A RUNNING state that reports nothing is legal as soon as its memory, PC and SP are (10_state.md R26, R29, R36). -/
theorem State.Inv.of_running (hr : s.run = .running) (he : s.err = none) (hm : s.mem.wf) (hpc : s.pc ≤ Config.memSize)
    (hsp : s.sp.toNat ≤ Config.spInit.toNat) : s.Inv where
  mem := hm
  pc := hpc
  sp := hsp
  err := by simp [hr, he]
  report := fun r h => by simp [he] at h

/-- Settles O33: reset is RUNNING, with no report and an empty memory. -/
theorem resetIsLegal : Obligations.ResetIsLegal :=
  .of_running rfl rfl Memory.reset_wf (Nat.zero_le _) le_rfl

/-- The state after a load is legal for every image, `pc_init` and `REG_INIT`, and every canonical `MEM_INIT`
(70_reset_and_hazards.md R240). -/
theorem Load.state_inv (hm : l.memInit.wf) : l.state.Inv :=
  .of_running rfl rfl (Memory.store_wf l.memInit Config.loadAddr l.image hm) l.pcInit.isLt.le le_rfl

/-- The load port keeps a legal state legal, whether it accepts the image or refuses it (70_reset_and_hazards.md R241). -/
theorem State.Inv.loadPort (h : s.Inv) (hm : l.memInit.wf) : (loadPort l s).Inv := by
  rcases Nat.lt_or_ge 256 l.image.length with long | fits
  · rwa [loadPort_of_too_long s long]
  · rw [loadPort_of_fits s fits]
    exact Load.state_inv hm

/-- Settles O34, by the two moves of 70_reset_and_hazards.md R244: `State.Inv.loadPort`, and `stepKeepsTheInvariant`. -/
theorem hostMovesKeepTheInvariant : Obligations.HostMovesKeepTheInvariant := by
  intro mv s t hinv hmem h
  cases mv with
  | load l =>
    cases h
    exact hinv.loadPort (hmem l rfl)
  | step => exact stepKeepsTheInvariant s t hinv h

end Machine
end Sys2Proof
end
